-- ==== Sys2Proof/Word.lean ====
section
/-! DEFINITION. The word types of the block: bytes, timer words, masks, and the greatest value of a width.
Every value of the block is unsigned (R13). -/

namespace Sys2Proof

/-- One character of a wire string (R14). -/
abbrev Byte := BitVec 8

/-- A W-bit value: a timestamp, a threshold or a timer mark, with W = 32 (R8, R9; assumption 1). -/
abbrev Word := BitVec 32

/-- A 64-bit mask. Bit `i` has the value `2 ^ i` and belongs to the channel with identifier `i + 1` (R5). -/
abbrev Mask := BitVec 64

/-- `MAX` of a clock of width `w`: its greatest value (R8). -/
def maxTicks (w : Nat) : Nat := 2 ^ w - 1

end Sys2Proof
end

