-- ==== Sys2Proof/Config.lean ====
section
/-! DEFINITION. What an implementation fixes and what the spec leaves free: the buffer sizes (R11), and the one free
value of the model. -/

namespace Sys2Proof.Config

/-- The most bytes IBUF holds (R11, R35). -/
def ibufMax : Nat := 255

/-- The most bytes OBUF holds (R11, R29). -/
def obufMax : Nat := 28

/-- FREE VALUE (assumption 5, DESIGN CHOICE). The byte on a line of IBUF that the presentation does not list although ILEN
calls it valid. The spec gives such a byte no value. It depends on the listed bytes and the index alone, because every
operation on the same inputs gives the same result (R56, R233). -/
opaque undrivenByte : List Byte → Nat → Byte

end Sys2Proof.Config
end

