-- ==== Sys2Proof/Syntax.lean ====
section
/-! DEFINITION. The fourteen operations of the block with their operands (R72, R73), and the input ports on which the
environment presents one of them (R32 to R35). -/

namespace Sys2Proof

/-- The input ports for one step. A port an operation does not read has no effect on it (R35, R73). -/
structure Ports where
  /-- `OP`, the operation code (R32). -/
  op : Byte := 0
  /-- `T`, the timestamp (R33). -/
  t : Word := 0
  /-- `VAL`, the value of SETLT and SETIT (R34). -/
  val : Word := 0
  /-- `ID`, a channel identifier (R6, R35). -/
  id : BitVec 7 := 0
  /-- `MA`, the first mask (R35). -/
  ma : Mask := 0
  /-- `MB`, the clearing mask (R35). -/
  mb : Mask := 0
  /-- `ARG`, the argument to encode (R35). -/
  arg : BitVec 16 := 0
  /-- `CMD`, the command code to encode (R35, R79). -/
  cmd : BitVec 2 := 0
  /-- `IBUF`, the input bytes, `b[0]` first (R35, R51). -/
  ibuf : List Byte := []
  /-- `ILEN`, the number of valid bytes in `IBUF` (R35). -/
  ilen : Byte := 0
  deriving DecidableEq, Repr

/-- An operation with the operands its format reads (R72, R73). -/
inductive Instr where
  /-- NOP, format N (R121). -/
  | nop
  /-- PRESS `t`, format E (R122). -/
  | press (t : Word)
  /-- RELEASE `t`, format E (R125). -/
  | release (t : Word)
  /-- POLL `t`, format E (R128). -/
  | poll (t : Word)
  /-- ENABLE, format N (R131). -/
  | enable
  /-- DISABLE, format N (R133). -/
  | disable
  /-- SETLT `v`, format V (R135). -/
  | setlt (v : Word)
  /-- SETIT `v`, format V (R136). -/
  | setit (v : Word)
  /-- ENCODE `cmd, m, a`, format GE (R160). -/
  | encode (cmd : BitVec 2) (m : Mask) (a : BitVec 16)
  /-- DECODE of the first `ilen` bytes of `ibuf`, format GB (R164). -/
  | decode (ibuf : List Byte) (ilen : Byte)
  /-- CMDKIND of the first `ilen` bytes of `ibuf`, format GB (R168). -/
  | cmdkind (ibuf : List Byte) (ilen : Byte)
  /-- MATCH `id, m`, format GI (R169). -/
  | matchId (id : BitVec 7) (m : Mask)
  /-- CLRBITS `a, b`, format GM (R170). -/
  | clrbits (a b : Mask)
  /-- SELFUNMASK `id, m`, format GI (R171). -/
  | selfunmask (id : BitVec 7) (m : Mask)
  deriving DecidableEq, Repr

end Sys2Proof
end

