-- ==== Sys2Proof/WellFormed.lean ====
section
/-! DEFINITION. Which operations and presentations the interface admits. Every port but IBUF has a fixed width, which its
type says. IBUF holds 0 to 255 bytes (R11), and ILEN counts valid bytes of it (R35). -/

namespace Sys2Proof

/-- IBUF holds at most 255 bytes (R11, D31). -/
def ibufFits (ibuf : List Byte) : Bool := ibuf.length ≤ Config.ibufMax

/-- Every byte that ILEN counts as valid is a byte of IBUF (R35). -/
def ilenValid (ibuf : List Byte) (ilen : Byte) : Bool := ilen.toNat ≤ ibuf.length

/-- The two checks on the byte string of format GB. -/
def gbWellFormed (ibuf : List Byte) (ilen : Byte) : Bool := ibufFits ibuf && ilenValid ibuf ilen

/-- An operation the interface admits. -/
def Instr.wf : Instr → Bool
  | .nop => true
  | .press _ => true
  | .release _ => true
  | .poll _ => true
  | .enable => true
  | .disable => true
  | .setlt _ => true
  | .setit _ => true
  | .encode _ _ _ => true
  | .decode ibuf ilen => gbWellFormed ibuf ilen
  | .cmdkind ibuf ilen => gbWellFormed ibuf ilen
  | .matchId _ _ => true
  | .clrbits _ _ => true
  | .selfunmask _ _ => true

/-- A presentation the interface admits. -/
def Ports.wf (p : Ports) : Bool := gbWellFormed p.ibuf p.ilen

end Sys2Proof
end

