-- ==== Sys2Proof/Decode.lean ====
section
/-! DEFINITION. From the ports to an operation (R70 to R75), total on all 256 codes and rejecting the reserved ones by name
(R76), and the encoder, written from the opcode map (R72). -/

namespace Sys2Proof

/-- Why the decoder gives no operation. -/
inductive DecodeReject where
  /-- A reserved code: unit 0 with function 8 to 15, unit 1 with function 6 to 15, or a unit of 2 to 15 (R76). -/
  | reservedCode (op : Byte)
  deriving DecidableEq, Repr

/-- `U`, the unit field `OP[7:4]` (R71). -/
def opUnit (op : Byte) : BitVec 4 := op.extractLsb' 4 4

/-- `F`, the function field `OP[3:0]` (R71). -/
def opFunction (op : Byte) : BitVec 4 := op.extractLsb' 0 4

/-- The operation of function `f` of unit `u` (R72), with its operands from the ports of its format, unchanged (R73, R74). -/
def decodeFields (u f : Nat) (p : Ports) : Except DecodeReject Instr :=
  match u, f with
  | 0, 0 => .ok .nop
  | 0, 1 => .ok (.press p.t)
  | 0, 2 => .ok (.release p.t)
  | 0, 3 => .ok (.poll p.t)
  | 0, 4 => .ok .enable
  | 0, 5 => .ok .disable
  | 0, 6 => .ok (.setlt p.val)
  | 0, 7 => .ok (.setit p.val)
  | 1, 0 => .ok (.encode p.cmd p.ma p.arg)
  | 1, 1 => .ok (.decode p.ibuf p.ilen)
  | 1, 2 => .ok (.cmdkind p.ibuf p.ilen)
  | 1, 3 => .ok (.matchId p.id p.ma)
  | 1, 4 => .ok (.clrbits p.ma p.mb)
  | 1, 5 => .ok (.selfunmask p.id p.ma)
  | _, _ => .error (.reservedCode p.op)

/-- The decoding procedure (R75), on the unit and function of OP. The state of the block plays no part (R78). -/
def decode (p : Ports) : Except DecodeReject Instr := decodeFields (opUnit p.op).toNat (opFunction p.op).toNat p

/-- The code of each operation (R72). -/
def opcode : Instr → Byte
  | .nop => 0x00
  | .press _ => 0x01
  | .release _ => 0x02
  | .poll _ => 0x03
  | .enable => 0x04
  | .disable => 0x05
  | .setlt _ => 0x06
  | .setit _ => 0x07
  | .encode _ _ _ => 0x10
  | .decode _ _ => 0x11
  | .cmdkind _ _ => 0x12
  | .matchId _ _ => 0x13
  | .clrbits _ _ => 0x14
  | .selfunmask _ _ => 0x15

/-- The presentation of an operation: its code and its operands on the ports of its format. The other ports, which have no
effect (R73), are driven to zero (assumption 13). -/
def encode (i : Instr) : Ports :=
  match i with
  | .nop => { op := opcode i }
  | .press t => { op := opcode i, t := t }
  | .release t => { op := opcode i, t := t }
  | .poll t => { op := opcode i, t := t }
  | .enable => { op := opcode i }
  | .disable => { op := opcode i }
  | .setlt v => { op := opcode i, val := v }
  | .setit v => { op := opcode i, val := v }
  | .encode cmd m a => { op := opcode i, cmd := cmd, ma := m, arg := a }
  | .decode ibuf ilen => { op := opcode i, ibuf := ibuf, ilen := ilen }
  | .cmdkind ibuf ilen => { op := opcode i, ibuf := ibuf, ilen := ilen }
  | .matchId id m => { op := opcode i, id := id, ma := m }
  | .clrbits a b => { op := opcode i, ma := a, mb := b }
  | .selfunmask id m => { op := opcode i, id := id, ma := m }

/-- The code `w` of a row of the opcode table on OP, with every operand port at zero (assumption 12). -/
def tablePorts (nbits w : Nat) : Ports := { op := BitVec.ofNat 8 (w % 2 ^ nbits) }

/-- What the decoder reads from a row of the opcode table. -/
def decodeTableWord (nbits w : Nat) : Option Instr :=
  match decode (tablePorts nbits w) with
  | .ok i => some i
  | .error _ => none

end Sys2Proof
end

