-- ==== Sys2Proof/Machine/State.lean ====
section
/-! DEFINITION. The state of one block instance (10_state.md), its value after reset (R39), and the reasons a step can stop. -/

namespace Sys2Proof.Machine

/-- The classifier state `st`, in the order of its codes 0 to 3 (R22; assumption 8). -/
inductive ClassState where
  /-- No sequence in progress. -/
  | idle
  /-- The input is held. -/
  | pressed
  /-- At least one short tap seen, the inter-tap window open. -/
  | released
  /-- Absorbs all edges and polls (R134). -/
  | disabled
  deriving DecidableEq, Repr

/-- The event kind `evt_kind`, in the order of its codes 0 to 2 (R30; assumption 8). -/
inductive EvtKind where
  /-- No event. -/
  | none
  /-- A ShortTap. -/
  | short
  /-- A LongTap. -/
  | long
  deriving DecidableEq, Repr

/-- What a classifier transition emits: the Tap Event of R17, or nothing. -/
inductive TapEvent where
  /-- Nothing is emitted. -/
  | none
  /-- ShortTap with its count. -/
  | short (count : BitVec 16)
  /-- LongTap. -/
  | long
  deriving DecidableEq, Repr

/-- The Monotonic Timer of width `w`: its two marks, hidden from the environment (R26, R27, R36). -/
structure Timer (w : Nat) where
  /-- `tm_start` (R26). -/
  start : BitVec w
  /-- `tm_now` (R27). -/
  now : BitVec w
  deriving DecidableEq, Repr

/-- The registers of the Tap Classifier for a clock of width `w` (R22 to R27). -/
structure Classifier (w : Nat) where
  /-- `st` (R22). -/
  st : ClassState
  /-- `cnt`, the press counter (R23). -/
  cnt : BitVec 16
  /-- `lt`, the long-tap threshold (R24). -/
  lt : BitVec w
  /-- `it`, the inter-tap window (R25). -/
  it : BitVec w
  /-- The timer marks (R26, R27). -/
  tm : Timer w
  deriving DecidableEq, Repr

/-- The result registers of the Group Protocol Codec (R28, R29). -/
structure CodecRegs where
  /-- `r_mask`, written by DECODE, CLRBITS and SELFUNMASK. -/
  rMask : Mask
  /-- `r_arg`, written by DECODE. -/
  rArg : BitVec 16
  /-- `r_valid`, written by DECODE. -/
  rValid : Bool
  /-- `r_bool`, written by MATCH. -/
  rBool : Bool
  /-- `r_cmd`, written by CMDKIND. -/
  rCmd : BitVec 2
  /-- `OBUF`, written by ENCODE (R29). -/
  obuf : List Byte
  /-- `OLEN`, written by ENCODE (R29; assumption 9). -/
  olen : Byte
  deriving DecidableEq, Repr

/-- The outputs that describe only the operation just performed (R30, R31, R40). -/
structure Outputs where
  /-- `evt_kind` (R30). -/
  evtKind : EvtKind
  /-- `evt_count` (R30). -/
  evtCount : BitVec 16
  /-- `err` (R31). -/
  err : Bool
  deriving DecidableEq, Repr

/-- What the environment does to the block between two steps of it. -/
inductive Stimulus where
  /-- It presents an operation on the input ports (R21). -/
  | op (p : Ports)
  /-- It resets the block (R230; assumption 4). -/
  | reset
  deriving DecidableEq, Repr

/-- One block instance with what its environment does next. -/
structure State where
  /-- The classifier and its timer (R22 to R27), with W = 32 (R8). -/
  cls : Classifier 32
  /-- The codec's result registers (R28, R29). -/
  codec : CodecRegs
  /-- The outputs of the operation just performed (R30, R31). -/
  out : Outputs
  /-- The model's own field (assumption 2): what the environment does from here on, oldest first. -/
  feed : List Stimulus
  deriving DecidableEq, Repr

/-- The classifier after reset (R39). -/
def Classifier.reset (w : Nat) : Classifier w :=
  { st := .disabled, cnt := 0, lt := 0, it := 0, tm := { start := 0, now := 0 } }

/-- The codec's result registers after reset (R39). -/
def CodecRegs.reset : CodecRegs :=
  { rMask := 0, rArg := 0, rValid := false, rBool := false, rCmd := 0, obuf := [], olen := 0 }

/-- The per-operation outputs after reset (R39). -/
def Outputs.reset : Outputs := { evtKind := .none, evtCount := 0, err := false }

/-- The block right after reset (R39, R230), with an environment that presents nothing yet (assumption 7). -/
def State.reset : State :=
  { cls := Classifier.reset 32, codec := CodecRegs.reset, out := Outputs.reset, feed := [] }

/-- The faults of the block: none, since no operation traps, halts or gets stuck (R200; assumption 18). Nothing raises one,
which is safe: it is what the spec says. -/
inductive Fault where
  deriving DecidableEq, Repr

/-- The refusals of the model. -/
inductive Refusal where
  /-- An operation the model gives no meaning, raised by its arm of `exec` alone. No arm raises it: every operation has its
  meaning. It would be safe. -/
  | notModelled (mnemonic : String)
  deriving DecidableEq, Repr

end Sys2Proof.Machine
end

