-- ==== Sys2Proof/Machine/Flags.lean ====
section
/-! DEFINITION. The per-operation outputs: their clearing at the start of every operation (R40), the two events (R30) and the
error indication (R31). The block has no condition codes (R37). -/

namespace Sys2Proof.Machine

/-- The outputs at the start of every operation: NONE, 0 and no error (R40). -/
def Outputs.cleared : Outputs := { evtKind := .none, evtCount := 0, err := false }

/-- The start of every operation (R40). -/
def beginOp (s : State) : State := { s with out := Outputs.cleared }

/-- `emit SHORT(c)` (R30). -/
def emitShort (c : BitVec 16) (s : State) : State := { s with out := { s.out with evtKind := .short, evtCount := c } }

/-- `emit LONG` (R30). -/
def emitLong (s : State) : State := { s with out := { s.out with evtKind := .long, evtCount := 0 } }

/-- The event a classifier transition emits, put on the outputs (R30). -/
def emit (ev : TapEvent) (s : State) : State :=
  match ev with
  | .none => s
  | .short c => emitShort c s
  | .long => emitLong s

/-- `err <- 1` (R31). -/
def raiseErr (s : State) : State := { s with out := { s.out with err := true } }

/-- The 2-bit code of an event kind (R30). -/
def EvtKind.code : EvtKind → BitVec 2
  | .none => 0
  | .short => 1
  | .long => 2

end Sys2Proof.Machine
end

