-- ==== Sys2Proof/Machine/Operands.lean ====
section
/-! DEFINITION. The operands of the codec: character codes (R80), the valid bytes of IBUF (R35, R56), the command names
(R79) and the identifiers that address a channel (R6). Every other operand is its port's value unchanged (R74). -/

namespace Sys2Proof.Machine

/-- `'/'` (R80). -/
def charSlash : Byte := 0x2F
/-- `'0'` (R80). -/
def charZero : Byte := 0x30
/-- `'x'` (R80). -/
def charX : Byte := 0x78

/-- Byte `i` of IBUF. A line the presentation does not list carries a free value (assumption 5). -/
def ibufByte (ibuf : List Byte) (i : Nat) : Byte :=
  match ibuf[i]? with
  | some b => b
  | none => Config.undrivenByte ibuf i

/-- The bytes `IBUF[0 .. n-1]`: exactly those an operation of format GB may read (R35, R56). -/
def ibufBytes (ibuf : List Byte) (n : Nat) : List Byte := (List.range n).map (ibufByte ibuf)

/-- `NAME(cmd)`: the three bytes of a command name; code 3 has none (R79). -/
def commandName (cmd : BitVec 2) : Option (List Byte) :=
  match cmd.toNat with
  | 0 => some [0x66, 0x73, 0x74]
  | 1 => some [0x66, 0x6C, 0x74]
  | 2 => some [0x74, 0x6F, 0x66]
  | _ => none

/-- The mask bit of an identifier: bit `id - 1` for 1 to 64, none for the unaddressable 0 and 65 to 127 (R5, R6, D29). -/
def idBit (id : BitVec 7) : Option Nat :=
  if 1 ≤ id.toNat ∧ id.toNat ≤ 64 then some (id.toNat - 1) else none

end Sys2Proof.Machine
end

