-- ==== Sys2Proof/Machine/Timer.lean ====
section
/-! DEFINITION. The Monotonic Timer primitives (40_timer.md), for a clock of any width `w` (R8). They are internal: no
operation code selects one (R2). -/

namespace Sys2Proof.Machine

/-- `TimerMarkAll(t)`: both marks at the current clock (R101). -/
def Timer.markAll {w : Nat} (t : BitVec w) (_tm : Timer w) : Timer w := { start := t, now := t }

/-- `TimerMarkNow(t)`: refresh the now mark; a clock below the start mark has wrapped once, so the sum is corrected and the
start mark goes to 0 (R102). -/
def Timer.markNow {w : Nat} (t : BitVec w) (tm : Timer w) : Timer w :=
  if t < tm.start then
    { start := 0, now := BitVec.ofNat w (t.toNat + (maxTicks w - tm.start.toNat) + 1) }
  else
    { tm with now := t }

/-- `TimerMarkLast()`: collapse the start mark to the now mark (R103). No operation uses it (R108). -/
def Timer.markLast {w : Nat} (tm : Timer w) : Timer w := { tm with start := tm.now }

/-- `TimerDelta()`: now less start (R104). Every use follows a mark that leaves start at or below now (R107; assumption 10). -/
def Timer.delta {w : Nat} (tm : Timer w) : BitVec w := tm.now - tm.start

/-- `Elapsed(t)`: TimerMarkNow, then TimerDelta; the marks it writes stand even if the caller discards the result (R105). -/
def Timer.elapsed {w : Nat} (t : BitVec w) (tm : Timer w) : BitVec w × Timer w :=
  let tm' := tm.markNow t
  (tm'.delta, tm')

end Sys2Proof.Machine
end

