-- ==== Sys2Proof/Machine/Ops.lean ====
section
/-! DEFINITION. The named operations over the registers that the meanings share: the classifier's registers as one unit, each
codec result register, the operation of a reserved code, and reset. The block takes no exception and returns from none
(R200, R209, R210), so no exception entry stands here. -/

namespace Sys2Proof.Machine

/-- The result type of every meaning. -/
abbrev Result := Host.Outcome State Fault Refusal

/-- `min(v, 0xFFFF)` in 16 bits (41_classifier.md, D9). -/
def sat16 (v : Nat) : BitVec 16 := BitVec.ofNat 16 (min v 0xFFFF)

/-- The 2-bit code of a classifier state (R22). -/
def ClassState.code : ClassState → BitVec 2
  | .idle => 0
  | .pressed => 1
  | .released => 2
  | .disabled => 3

/-- Write the classifier's registers. -/
def putClassifier (c : Classifier 32) (s : State) : State := { s with cls := c }

/-- Write what a classifier transition leaves: its registers, and the event it emits. -/
def putTransition (r : Classifier 32 × TapEvent) (s : State) : State := emit r.2 (putClassifier r.1 s)

/-- Write `r_mask` (R28). -/
def putMask (m : Mask) (s : State) : State := { s with codec := { s.codec with rMask := m } }

/-- Write `r_bool` (R28). -/
def putBool (b : Bool) (s : State) : State := { s with codec := { s.codec with rBool := b } }

/-- Write `r_cmd` (R28). -/
def putCmd (c : BitVec 2) (s : State) : State := { s with codec := { s.codec with rCmd := c } }

/-- Write `r_valid`, `r_mask` and `r_arg` (R28). -/
def putDecoded (valid : Bool) (m : Mask) (a : BitVec 16) (s : State) : State :=
  { s with codec := { s.codec with rValid := valid, rMask := m, rArg := a } }

/-- Replace all of `OBUF`, with `OLEN` its length (R29, R56). -/
def putObuf (b : List Byte) (s : State) : State :=
  { s with codec := { s.codec with obuf := b, olen := BitVec.ofNat 8 b.length } }

/-- An operation with a reserved code: `err <- 1` and no other change (R76). -/
def execReserved (s : State) : Result := .next (raiseErr (beginOp s))

/-- Reset: every register at its value of R39 (R230). What the environment does next is not the block's. -/
def resetBlock (s : State) : State := { State.reset with feed := s.feed }

end Sys2Proof.Machine
end

