-- ==== Sys2Proof/Machine/Classifier.lean ====
section
/-! DEFINITION. The Tap Classifier (41_classifier.md). The transitions stand over the classifier's registers alone, for a
clock of any width `w` (R8); each operation's meaning clears the outputs (R40) and applies its transition. Every state has a
result for every operation, a no-op where the spec lists none (R120). -/

namespace Sys2Proof.Machine

/-- PRESS (R122): from Idle it starts a sequence; in Released it continues one inside the window, and is ignored, with the
timer refreshed, once the window has closed (R123). -/
def Classifier.press {w : Nat} (t : BitVec w) (c : Classifier w) : Classifier w :=
  match c.st with
  | .idle => { c with st := .pressed, tm := c.tm.markAll t }
  | .released =>
    let e := c.tm.elapsed t
    if e.1 < c.it then { c with st := .pressed, tm := e.2.markAll t } else { c with tm := e.2 }
  | .pressed => c
  | .disabled => c

/-- RELEASE (R125): in Pressed it folds a short tap into the sequence, or emits LONG when this is the first tap, detection is
on and the hold reached the threshold (R126, R127). -/
def Classifier.release {w : Nat} (t : BitVec w) (c : Classifier w) : Classifier w × TapEvent :=
  match c.st with
  | .pressed =>
    let h := c.tm.elapsed t
    if 0 < c.cnt ∨ h.1 < c.lt ∨ c.lt = 0 then
      ({ c with st := .released, cnt := sat16 (c.cnt.toNat + 1), tm := h.2.markAll t }, .none)
    else
      ({ c with st := .idle, tm := h.2 }, .long)
  | .idle => (c, .none)
  | .released => (c, .none)
  | .disabled => (c, .none)

/-- POLL (R128): in Released it ends the sequence once the window has closed, and refreshes the timer otherwise. Elsewhere it
does nothing (R129). -/
def Classifier.poll {w : Nat} (t : BitVec w) (c : Classifier w) : Classifier w × TapEvent :=
  match c.st with
  | .released =>
    let e := c.tm.elapsed t
    if c.it ≤ e.1 then ({ c with st := .idle, cnt := 0, tm := e.2 }, .short c.cnt) else ({ c with tm := e.2 }, .none)
  | .idle => (c, .none)
  | .pressed => (c, .none)
  | .disabled => (c, .none)

/-- ENABLE (R131): the exit from Disabled; elsewhere nothing (R132). -/
def Classifier.enable {w : Nat} (c : Classifier w) : Classifier w :=
  match c.st with
  | .disabled => { c with st := .idle, cnt := 0 }
  | .idle => c
  | .pressed => c
  | .released => c

/-- DISABLE (R133): from any state, discarding a sequence without an event. -/
def Classifier.disable {w : Nat} (c : Classifier w) : Classifier w := { c with st := .disabled, cnt := 0 }

/-- SETLT (R135). -/
def Classifier.setLt {w : Nat} (v : BitVec w) (c : Classifier w) : Classifier w := { c with lt := v }

/-- SETIT (R136). -/
def Classifier.setIt {w : Nat} (v : BitVec w) (c : Classifier w) : Classifier w := { c with it := v }

/-- NOP (R121): nothing beyond the clearing of R40. -/
def execNop (s : State) : Result := .next (beginOp s)

/-- PRESS (R122). -/
def execPress (t : Word) (s : State) : Result := .next (putClassifier (s.cls.press t) (beginOp s))

/-- RELEASE (R125). -/
def execRelease (t : Word) (s : State) : Result := .next (putTransition (s.cls.release t) (beginOp s))

/-- POLL (R128). -/
def execPoll (t : Word) (s : State) : Result := .next (putTransition (s.cls.poll t) (beginOp s))

/-- ENABLE (R131). -/
def execEnable (s : State) : Result := .next (putClassifier s.cls.enable (beginOp s))

/-- DISABLE (R133). -/
def execDisable (s : State) : Result := .next (putClassifier s.cls.disable (beginOp s))

/-- SETLT (R135). -/
def execSetlt (v : Word) (s : State) : Result := .next (putClassifier (s.cls.setLt v) (beginOp s))

/-- SETIT (R136). -/
def execSetit (v : Word) (s : State) : Result := .next (putClassifier (s.cls.setIt v) (beginOp s))

end Sys2Proof.Machine
end

