-- ==== Sys2Proof/Machine/Wire.lean ====
section
/-! DEFINITION. The wire format of the group command: hexadecimal mask, decimal argument, and the parsers of DECODE and
CMDKIND (R81 to R84, R161, R162, R164 to R166, R168). -/

namespace Sys2Proof.Machine

/-- `HEXCHAR(n)`: the lowercase digit of a nibble (R161). -/
def hexChar (n : BitVec 4) : Byte :=
  if n.toNat ≤ 9 then BitVec.ofNat 8 (0x30 + n.toNat) else BitVec.ofNat 8 (0x61 + (n.toNat - 10))

/-- Mask bits `[63-4k : 60-4k]`, which digit `k` carries (R52, R82). -/
def maskNibble (m : Mask) (k : Nat) : BitVec 4 := m.extractLsb' (60 - 4 * k) 4

/-- `hex16(m)`: sixteen digits, most significant nibble first (R161). -/
def hex16 (m : Mask) : List Byte := (List.range 16).map fun k => hexChar (maskNibble m k)

/-- The code of a decimal digit (R80). -/
def digitChar (d : Nat) : Byte := BitVec.ofNat 8 (0x30 + d)

/-- `dec'(a)` (R162), with `fuel` digits at most. -/
def decDigits (fuel a : Nat) : List Byte :=
  match fuel with
  | 0 => []
  | fuel + 1 => if a = 0 then [] else decDigits fuel (a / 10) ++ [digitChar (a % 10)]

/-- `dec(a)`: base 10, fewest digits, `"0"` for zero (R83, R162). A 16-bit value has five digits at most (R163). -/
def decArg (a : BitVec 16) : List Byte := if a = 0 then [charZero] else decDigits 5 a.toNat

/-- The body `<mask>/<argument>` of a payload (R18, R81). -/
def encodeBody (m : Mask) (a : BitVec 16) : List Byte := [charZero, charX] ++ hex16 m ++ [charSlash] ++ decArg a

/-- The payload `<command-name>/<mask>/<argument>` (R81, R160). -/
def encodePayload (name : List Byte) (m : Mask) (a : BitVec 16) : List Byte := name ++ [charSlash] ++ encodeBody m a

/-- `hexval(c)`: the permissive nibble decoder, either case, 0 for any other byte (R165). -/
def hexval (c : Byte) : BitVec 4 :=
  if 0x30 ≤ c.toNat ∧ c.toNat ≤ 0x39 then BitVec.ofNat 4 (c.toNat - 0x30)
  else if 0x61 ≤ c.toNat ∧ c.toNat ≤ 0x66 then BitVec.ofNat 4 (c.toNat - 0x61 + 10)
  else if 0x41 ≤ c.toNat ∧ c.toNat ≤ 0x46 then BitVec.ofNat 4 (c.toNat - 0x41 + 10)
  else 0

/-- The mask accumulator of DECODE over the mask digits, first digit first (R164). -/
def parseMask (digits : List Byte) : Mask :=
  digits.foldl (fun mk c => (mk <<< 4) ||| (hexval c).setWidth 64) 0

/-- A decimal digit's character (R166). -/
def isDigit (c : Byte) : Bool := 0x30 ≤ c.toNat && c.toNat ≤ 0x39

/-- `decimal`: the lenient count parser, from accumulator `a` (R166). Digits accumulate modulo `2^16`; the first byte that is
no digit makes the count 0 and ends the parse. -/
def parseCount (a : BitVec 16) : List Byte → BitVec 16
  | [] => a
  | c :: cs => if isDigit c then parseCount (BitVec.ofNat 16 (a.toNat * 10 + (c.toNat - 0x30))) cs else 0

/-- DECODE of the valid bytes: nothing for 19 bytes or fewer; else the mask of bytes 2 to 17 and the count from byte 19 on.
Bytes 0, 1 and 18 are not examined (R164). -/
def decodeBody (b : List Byte) : Option (Mask × BitVec 16) :=
  if 19 < b.length then some (parseMask ((b.drop 2).take 16), parseCount 0 (b.drop 19)) else none

/-- CMDKIND of the valid bytes: the code of the name before the first `'/'` at index 3, else 3 (R168). -/
def cmdKind : List Byte → BitVec 2
  | b0 :: b1 :: b2 :: b3 :: _ =>
    if b3 = charSlash then
      if some [b0, b1, b2] = commandName 0 then 0
      else if some [b0, b1, b2] = commandName 1 then 1
      else if some [b0, b1, b2] = commandName 2 then 2
      else 3
    else 3
  | _ => 3

end Sys2Proof.Machine
end

