-- ==== Sys2Proof/Machine/Codec.lean ====
section
/-! DEFINITION. The Group Protocol Codec (42_codec.md). Each operation reads its operands alone and writes the result registers
its rule names; none reads or writes a classifier register. -/

namespace Sys2Proof.Machine

/-- ENCODE (R160): the payload in OBUF, or `err` and an empty OBUF for the code with no name. -/
def execEncode (cmd : BitVec 2) (m : Mask) (a : BitVec 16) (s : State) : Result :=
  match commandName cmd with
  | some name => .next (putObuf (encodePayload name m a) (beginOp s))
  | none => .next (putObuf [] (raiseErr (beginOp s)))

/-- DECODE (R164), with the zero results of a body that is too short (R167). -/
def execDecode (ibuf : List Byte) (ilen : Byte) (s : State) : Result :=
  match decodeBody (ibufBytes ibuf ilen.toNat) with
  | some (m, a) => .next (putDecoded true m a (beginOp s))
  | none => .next (putDecoded false 0 0 (beginOp s))

/-- CMDKIND (R168). -/
def execCmdkind (ibuf : List Byte) (ilen : Byte) (s : State) : Result :=
  .next (putCmd (cmdKind (ibufBytes ibuf ilen.toNat)) (beginOp s))

/-- `m[id - 1]`, and 0 for an unaddressable identifier (R169). -/
def maskHas (id : BitVec 7) (m : Mask) : Bool :=
  match idBit id with
  | some k => m.getLsbD k
  | none => false

/-- MATCH (R169). -/
def execMatchId (id : BitVec 7) (m : Mask) (s : State) : Result := .next (putBool (maskHas id m) (beginOp s))

/-- `a & ~b` (R170). -/
def clearBits (a b : Mask) : Mask := a &&& ~~~b

/-- CLRBITS (R170). -/
def execClrbits (a b : Mask) (s : State) : Result := .next (putMask (clearBits a b) (beginOp s))

/-- `m & ~(1 << (id - 1))`, and `m` for an unaddressable identifier (R171). -/
def selfUnmask (id : BitVec 7) (m : Mask) : Mask :=
  match idBit id with
  | some k => m &&& ~~~((1 : Mask) <<< k)
  | none => m

/-- SELFUNMASK (R171). -/
def execSelfunmask (id : BitVec 7) (m : Mask) (s : State) : Result := .next (putMask (selfUnmask id m) (beginOp s))

end Sys2Proof.Machine
end

