-- ==== Sys2Proof/Machine/Dispatch.lean ====
section
/-! DEFINITION. One arm for each operation, each a call of its meaning (R72). -/

namespace Sys2Proof.Machine

def exec (i : Instr) (s : State) : Host.Outcome State Fault Refusal :=
  match i with
  -- unit 0, the classifier
  | .nop => Sys2Proof.Machine.execNop s
  | .press t => Sys2Proof.Machine.execPress t s
  | .release t => Sys2Proof.Machine.execRelease t s
  | .poll t => Sys2Proof.Machine.execPoll t s
  | .enable => Sys2Proof.Machine.execEnable s
  | .disable => Sys2Proof.Machine.execDisable s
  | .setlt v => Sys2Proof.Machine.execSetlt v s
  | .setit v => Sys2Proof.Machine.execSetit v s
  -- unit 1, the codec
  | .encode cmd m a => Sys2Proof.Machine.execEncode cmd m a s
  | .decode ibuf ilen => Sys2Proof.Machine.execDecode ibuf ilen s
  | .cmdkind ibuf ilen => Sys2Proof.Machine.execCmdkind ibuf ilen s
  | .matchId id m => Sys2Proof.Machine.execMatchId id m s
  | .clrbits a b => Sys2Proof.Machine.execClrbits a b s
  | .selfunmask id m => Sys2Proof.Machine.execSelfunmask id m s

end Sys2Proof.Machine
end

