-- ==== Sys2Proof/Machine/Step.lean ====
section
/-! DEFINITION. One step of the block: it performs the next operation its environment presents (R21, R59, R60), is reset, or
waits (R230). -/

namespace Sys2Proof.Machine

/-- Perform the operation presented on the ports: a defined code's own meaning, or that of a reserved code (R75, R76). -/
def performPorts (p : Ports) (s : State) : Host.Outcome State Fault Refusal :=
  match decode p with
  | .ok i => exec i s
  | .error _ => execReserved s

/-- One step. With nothing presented the block waits and nothing changes (R230; assumption 3). -/
def step (s : State) : Host.Outcome State Fault Refusal :=
  match s.feed with
  | [] => .next s
  | .op p :: rest => performPorts p { s with feed := rest }
  | .reset :: rest => .next (resetBlock { s with feed := rest })

/-- `s` with the operation of table code `w` presented next (assumption 12). -/
def State.withFetchWord (s : State) (nbits w : Nat) : State := { s with feed := .op (tablePorts nbits w) :: s.feed }

end Sys2Proof.Machine
end

