-- ==== Sys2Proof/Machine/Visible.lean ====
section
/-! DEFINITION. What the environment can observe of a block (R36): the outputs ST, CNT, LT and IT, the result registers, OBUF
and OLEN, and the outputs of the operation just performed. The timer marks are hidden. -/

namespace Sys2Proof.Machine

/-- The outputs of the block (R36), with the codes of R22 and R30. -/
structure Visible where
  /-- `ST` (R22). -/
  st : BitVec 2
  /-- `CNT`. -/
  cnt : BitVec 16
  /-- `LT`. -/
  lt : Word
  /-- `IT`. -/
  it : Word
  /-- The result registers, OBUF and OLEN (R28, R29). -/
  codec : CodecRegs
  /-- `evt_kind` (R30). -/
  evtKind : BitVec 2
  /-- `evt_count` (R30). -/
  evtCount : BitVec 16
  /-- `err` (R31). -/
  err : Bool
  deriving DecidableEq, Repr

/-- The visible outputs of a block (R36). -/
def State.visible (s : State) : Visible :=
  { st := s.cls.st.code, cnt := s.cls.cnt, lt := s.cls.lt, it := s.cls.it, codec := s.codec,
    evtKind := s.out.evtKind.code, evtCount := s.out.evtCount, err := s.out.err }

/-- The Tap Event on the outputs, which the environment samples after an operation (R30, R206, R239). -/
def State.event (s : State) : TapEvent :=
  match s.out.evtKind with
  | .none => .none
  | .short => .short s.out.evtCount
  | .long => .long

/-- The events of one sample: none, or the one event of the operation (R140). -/
def TapEvent.sample : TapEvent → List TapEvent
  | .none => []
  | .short c => [.short c]
  | .long => [.long]

end Sys2Proof.Machine
end

