-- ==== Sys2Proof/Machine/Environment.lean ====
section
/-! DEFINITION. What the environment does with the block: operations in sequence, the pseudo-operations (R86), the boot
sequence (R231), and the procedures for receiving and forwarding a group command (R175 to R178). -/

namespace Sys2Proof.Machine

/-- Operations performed one after the other, each on the state the one before it left (R60). -/
def performAll : List Instr → State → Host.Outcome State Fault Refusal
  | [], s => .next s
  | i :: is, s =>
    match exec i s with
    | .next s' => performAll is s'
    | .fault r => .fault r
    | .refused r => .refused r

/-- The presentations of operations, to be placed in a block's feed. -/
def presentAll (is : List Instr) : List Stimulus := is.map fun i => .op (encode i)

/-- The events sampled after each operation, oldest first, without the operations that emitted none (R206, R239). -/
def sampledEvents : List Instr → State → List TapEvent
  | [], _ => []
  | i :: is, s =>
    match exec i s with
    | .next s' => s'.event.sample ++ sampledEvents is s'
    | .fault _ => []
    | .refused _ => []

/-- DECODE of a whole byte string: IBUF holds it and ILEN is its length (R85). DESIGN CHOICE (assumption 24): a string of more
than 255 bytes, which cannot be presented (D31), gives ILEN its length modulo 256, in an operation that `Instr.wf` refuses. -/
def decodeString (b : List Byte) : Instr := .decode b (BitVec.ofNat 8 b.length)

/-- CMDKIND of a whole byte string (R85). DESIGN CHOICE (assumption 24): more than 255 bytes are treated as in `decodeString`. -/
def cmdkindString (b : List Byte) : Instr := .cmdkind b (BitVec.ofNat 8 b.length)

/-- `TAP t0, t1`: one press/release cycle (R86). -/
def pseudoTap (t0 t1 : Word) : List Instr := [.press t0, .release t1]

/-- `CONFIG lt, it`: both thresholds (R86). -/
def pseudoConfig (lt it : Word) : List Instr := [.setlt lt, .setit it]

/-- `RESTART`: discard any sequence and return to Idle (R86). -/
def pseudoRestart : List Instr := [.disable, .enable]

/-- `RECV payload`: classify and decode one group command (R86). For payloads of more than 255 bytes see assumption 24. -/
def pseudoRecv (payload : List Byte) : List Instr := [cmdkindString payload, decodeString (payload.drop 4)]

/-- A sequence of taps, each with its press and its release time. -/
def tapSequence (taps : List (Word × Word)) : List Instr := taps.flatMap fun tap => pseudoTap tap.1 tap.2

/-- An edge and a poll at the same instant: the edge is presented first (R207). -/
def edgeThenPoll (edge : Instr) (t : Word) : List Instr := [edge, .poll t]

/-- The boot sequence of an enabled channel: thresholds, the self-unmasking of each mask it will store, ENABLE (R231). -/
def bootSequence (lt it : Word) (id : BitVec 7) (masks : List Mask) : List Instr :=
  pseudoConfig lt it ++ masks.map (.selfunmask id) ++ [.enable]

/-- Step 3 of receiving a group command: MATCH of the channel's identifier with the decoded mask (R175). -/
def receiveMatch (id : BitVec 7) (s : State) : Instr := .matchId id s.codec.rMask

/-- Step 4: the channel acts only on a group command with a valid body that addresses it (R175). -/
def receiveActs (s : State) : Bool := s.codec.rCmd != 3 && s.codec.rValid && s.codec.rBool

/-- Receiving a payload on the channel `id`: CMDKIND, DECODE from index 4, MATCH (R175). For payloads of more than 255 bytes see
assumption 24. -/
def receiveCommand (id : BitVec 7) (payload : List Byte) (s : State) : Host.Outcome State Fault Refusal :=
  match performAll (pseudoRecv payload) s with
  | .next s' => exec (receiveMatch id s') s'
  | .fault r => .fault r
  | .refused r => .refused r

/-- Forwarding a wave: CLRBITS of the channel's own mask with the incoming one, then ENCODE of the adjusted mask (R176, R178). -/
def forwardCommand (cmd : BitVec 2) (own incoming : Mask) (count : BitVec 16) (s : State) :
    Host.Outcome State Fault Refusal :=
  match exec (.clrbits own incoming) s with
  | .next s' => exec (.encode cmd s'.codec.rMask count) s'
  | .fault r => .fault r
  | .refused r => .refused r

end Sys2Proof.Machine
end

