-- ==== Sys2Proof/Machine/Assembler.lean ====
section
/-! DEFINITION. The line syntax of the spec's assembler (R85) with its pseudo-operations (R86): a line becomes the
presentations it stands for, each setting the ports its format reads and no other. Where R85 gives no lexical detail, assumption
19 says what is chosen here. A line that does not fit the syntax assembles to nothing. -/

namespace Sys2Proof.Machine

/-- Whether a character separates the words of a line. -/
def isBlank (c : Char) : Bool := c = ' ' || c = '\t'

/-- A line without its comment: a semicolon outside a string starts one (R85). -/
def stripComment (inString : Bool) : List Char → List Char
  | [] => []
  | c :: cs =>
    if c = ';' && !inString then []
    else c :: stripComment (if c = '"' then !inString else inString) cs

/-- Characters without the blanks at both ends. -/
def trimBlanks (cs : List Char) : List Char := ((cs.dropWhile isBlank).reverse.dropWhile isBlank).reverse

/-- The operands of a line, separated by commas. -/
def splitOperands : List Char → List (List Char)
  | [] => [[]]
  | c :: cs =>
    match splitOperands cs with
    | [] => [[c]]
    | w :: ws => if c = ',' then [] :: w :: ws else (c :: w) :: ws

/-- The value of a hexadecimal digit of the syntax, in either case. -/
def digitValue (c : Char) : Option Nat :=
  if '0' ≤ c ∧ c ≤ '9' then some (c.toNat - 0x30)
  else if 'a' ≤ c ∧ c ≤ 'f' then some (c.toNat - 0x61 + 10)
  else if 'A' ≤ c ∧ c ≤ 'F' then some (c.toNat - 0x41 + 10)
  else none

/-- The value of digits in a base, most significant first, after the value `v`. -/
def digitsFrom (base v : Nat) : List Char → Option Nat
  | [] => some v
  | c :: cs =>
    match digitValue c with
    | some d => if d < base then digitsFrom base (v * base + d) cs else none
    | none => none

/-- A number: decimal, or hexadecimal after `0x` (R85). -/
def numberValue (cs : List Char) : Option Nat :=
  match cs with
  | [] => none
  | '0' :: 'x' :: [] => none
  | '0' :: 'x' :: hs => digitsFrom 16 0 hs
  | ds => digitsFrom 10 0 ds

/-- A number that fits a port of `n` bits (R74). -/
def portValue (n : Nat) (cs : List Char) : Option (BitVec n) :=
  match numberValue (trimBlanks cs) with
  | some v => if v < 2 ^ n then some (BitVec.ofNat n v) else none
  | none => none

/-- A command operand: `fst`, `flt`, `tof` or `3` (R79, R85). -/
def commandValue (cs : List Char) : Option (BitVec 2) :=
  match trimBlanks cs with
  | ['f', 's', 't'] => some 0
  | ['f', 'l', 't'] => some 1
  | ['t', 'o', 'f'] => some 2
  | ['3'] => some 3
  | _ => none

/-- The bytes of a string after its opening quote: ASCII characters, and `\xHH` for a byte (R85). It ends the line. -/
def stringBytes : List Char → Option (List Byte)
  | [] => none
  | ['"'] => some []
  | '"' :: _ => none
  | '\\' :: 'x' :: h :: l :: cs =>
    match digitValue h, digitValue l, stringBytes cs with
    | some a, some b, some bs => some (BitVec.ofNat 8 (16 * a + b) :: bs)
    | _, _, _ => none
  | c :: cs =>
    match stringBytes cs with
    | some bs => if c.toNat < 128 ∧ c ≠ '\\' then some (BitVec.ofNat 8 c.toNat :: bs) else none
    | none => none

/-- A string operand that fits IBUF (R11). -/
def stringValue (cs : List Char) : Option (List Byte) :=
  match trimBlanks cs with
  | '"' :: rest =>
    match stringBytes rest with
    | some bs => if ibufFits bs then some bs else none
    | none => none
  | _ => none

/-- Operations with no operand. -/
def assembleNone (is : List Instr) (rest : List Char) : Option (List Ports) :=
  if rest = [] then some (is.map encode) else none

/-- Operations with one number as operand. -/
def assembleOne (n : Nat) (f : BitVec n → List Instr) (rest : List Char) : Option (List Ports) :=
  match portValue n rest with
  | some v => some ((f v).map encode)
  | none => none

/-- Operations with two numbers as operands. -/
def assembleTwo (n k : Nat) (f : BitVec n → BitVec k → List Instr) (rest : List Char) : Option (List Ports) :=
  match splitOperands rest with
  | [a, b] =>
    match portValue n a, portValue k b with
    | some x, some y => some ((f x y).map encode)
    | _, _ => none
  | _ => none

/-- Operations with a string as operand. -/
def assembleString (f : List Byte → List Instr) (rest : List Char) : Option (List Ports) :=
  match stringValue rest with
  | some b => some ((f b).map encode)
  | none => none

/-- ENCODE with its three operands. -/
def assembleEncode (rest : List Char) : Option (List Ports) :=
  match splitOperands rest with
  | [c, m, a] =>
    match commandValue c, portValue 64 m, portValue 16 a with
    | some cmd, some mask, some arg => some [encode (.encode cmd mask arg)]
    | _, _, _ => none
  | _ => none

/-- `.OP byte`: a raw code, for the reserved codes, with no operand port set (R85). DESIGN CHOICE (assumption 22): R85 gives the
line for reserved codes, and here a defined code is accepted too, so its operation is performed with its operand ports at zero
and IBUF empty. -/
def assembleRaw (rest : List Char) : Option (List Ports) :=
  match portValue 8 rest with
  | some op => some [{ op := op }]
  | none => none

/-- The presentations a mnemonic and its operands stand for (R85, R86). -/
def assembleWords (mnemonic rest : List Char) : Option (List Ports) :=
  if mnemonic = "NOP".toList then assembleNone [.nop] rest
  else if mnemonic = "PRESS".toList then assembleOne 32 (fun t => [.press t]) rest
  else if mnemonic = "RELEASE".toList then assembleOne 32 (fun t => [.release t]) rest
  else if mnemonic = "POLL".toList then assembleOne 32 (fun t => [.poll t]) rest
  else if mnemonic = "ENABLE".toList then assembleNone [.enable] rest
  else if mnemonic = "DISABLE".toList then assembleNone [.disable] rest
  else if mnemonic = "SETLT".toList then assembleOne 32 (fun v => [.setlt v]) rest
  else if mnemonic = "SETIT".toList then assembleOne 32 (fun v => [.setit v]) rest
  else if mnemonic = "ENCODE".toList then assembleEncode rest
  else if mnemonic = "DECODE".toList then assembleString (fun b => [decodeString b]) rest
  else if mnemonic = "CMDKIND".toList then assembleString (fun b => [cmdkindString b]) rest
  else if mnemonic = "MATCH".toList then assembleTwo 7 64 (fun id m => [.matchId id m]) rest
  else if mnemonic = "CLRBITS".toList then assembleTwo 64 64 (fun a b => [.clrbits a b]) rest
  else if mnemonic = "SELFUNMASK".toList then assembleTwo 7 64 (fun id m => [.selfunmask id m]) rest
  else if mnemonic = ".OP".toList then assembleRaw rest
  else if mnemonic = "TAP".toList then assembleTwo 32 32 pseudoTap rest
  else if mnemonic = "CONFIG".toList then assembleTwo 32 32 pseudoConfig rest
  else if mnemonic = "RESTART".toList then assembleNone pseudoRestart rest
  else if mnemonic = "RECV".toList then assembleString pseudoRecv rest
  else none

/-- One line (R85). A line that is blank but for a comment stands for no operation. -/
def assembleLine (line : List Char) : Option (List Ports) :=
  let body := trimBlanks (stripComment false line)
  if body = [] then some []
  else assembleWords (body.takeWhile (!isBlank ·)) (trimBlanks (body.dropWhile (!isBlank ·)))

/-- A program: the presentations of its lines in order. -/
def assembleProgram : List (List Char) → Option (List Ports)
  | [] => some []
  | line :: lines =>
    match assembleLine line, assembleProgram lines with
    | some ps, some qs => some (ps ++ qs)
    | _, _ => none

end Sys2Proof.Machine
end

