-- ==== Sys2Proof/Machine/System.lean ====
section
/-! DEFINITION. A system of independent block instances, one for each channel (R10, R215). Instances share no state, and their
steps interleave in every order (R62): a schedule, which nothing constrains, says which instance steps next. -/

namespace Sys2Proof.Machine

/-- The instances of a system, by index. Each holds what its own environment presents to it. -/
abbrev System := List State

/-- `n` instances right after reset: they start together (R215). -/
def systemReset (n : Nat) : System := List.replicate n State.reset

/-- Instance `k` steps, and no other. An index with no instance steps nothing. DESIGN CHOICE (assumption 25): a reset during a run
is an entry of one instance's feed, so it reaches that instance alone, and no one step resets them all. -/
def systemStep (k : Nat) (sys : System) : Host.Outcome System Fault Refusal :=
  match sys[k]? with
  | none => .next sys
  | some s =>
    match step s with
    | .next s' => .next (sys.set k s')
    | .fault r => .fault r
    | .refused r => .refused r

/-- The instances step in the order of a schedule. -/
def systemRun : List Nat → System → Host.Outcome System Fault Refusal
  | [], sys => .next sys
  | k :: ks, sys =>
    match systemStep k sys with
    | .next sys' => systemRun ks sys'
    | .fault r => .fault r
    | .refused r => .refused r

end Sys2Proof.Machine
end

