-- ==== Sys2Proof/Safety.lean ====
section
/-! DEFINITION. What a good state of the block is (R38, R29, R140, R163), and what a good environment does (R234, R236, R237):
the terms of the claims. -/

namespace Sys2Proof.Machine

/-- The invariants (a) to (d) of R38 on the classifier's registers. -/
structure Classifier.Good {w : Nat} (c : Classifier w) : Prop where
  /-- R38 (a). -/
  idle_cnt : c.st = .idle → c.cnt = 0
  /-- R38 (b). -/
  disabled_cnt : c.st = .disabled → c.cnt = 0
  /-- R38 (c). -/
  released_cnt : c.st = .released → 1 ≤ c.cnt.toNat
  /-- R38 (d), R107. -/
  marks_ordered : c.tm.start ≤ c.tm.now

/-- The invariants of the codec's result registers (R29, R163, R167). -/
structure CodecRegs.Good (r : CodecRegs) : Prop where
  /-- OLEN equals the length of OBUF at all times (R29). -/
  olen_length : r.olen.toNat = r.obuf.length
  /-- OBUF is empty or holds a payload of 24 to 28 bytes (R160, R163). -/
  obuf_bounds : r.obuf.length = 0 ∨ (24 ≤ r.obuf.length ∧ r.obuf.length ≤ Config.obufMax)
  /-- An invalid decode leaves the argument 0, and only DECODE writes either (R28, R167). -/
  invalid_arg : r.rValid = false → r.rArg = 0

/-- The invariants of the block (R38, R140, R208). -/
structure State.Good (s : State) : Prop where
  /-- R38 (a) to (d). -/
  cls_good : s.cls.Good
  /-- R29, R163, R167. -/
  codec_good : s.codec.Good
  /-- A ShortTap has a count of at least 1 (R38 (e)). -/
  short_count : s.out.evtKind = .short → 1 ≤ s.out.evtCount.toNat
  /-- Any other output has the count 0 (R30, R40). -/
  other_count : s.out.evtKind ≠ .short → s.out.evtCount = 0
  /-- Every operation that emits an event leaves Idle with `cnt = 0`, and no operation has both an event and an error
  (R140, R208). -/
  event_idle : s.out.evtKind ≠ .none → s.cls.st = .idle ∧ s.cls.cnt = 0 ∧ s.out.err = false

/-- Elapsed clock ticks from mark `a` to clock `b` on a clock of width `w` that wrapped at most once between them (R106). -/
def ticksBetween {w : Nat} (a b : BitVec w) : Nat := if b < a then b.toNat + 2 ^ w - a.toNat else b.toNat - a.toNat

/-- The marks TimerMarkNow leaves at clock `t` (R102), in one subtraction modulo `2^w`: `tm_start` stays unless the clock
wrapped, and the corrected `tm_now` is then the time since it. -/
def refreshedMarks {w : Nat} (t : BitVec w) (tm : Timer w) : Timer w :=
  if t < tm.start then { start := 0, now := t - tm.start } else { start := tm.start, now := t }

/-- A reserved code (R76), by its unit and function numbers. -/
abbrev IsReserved (op : Byte) : Prop :=
  (op.toNat / 16 = 0 ∧ 8 ≤ op.toNat % 16) ∨ (op.toNat / 16 = 1 ∧ 6 ≤ op.toNat % 16) ∨ 2 ≤ op.toNat / 16

/-- Two presentations with the same code and the same values on every port that the code's format reads (R73). -/
abbrev SameReadPorts (p q : Ports) : Prop :=
  p.op = q.op ∧
  (p.op.toNat ∈ [0x01, 0x02, 0x03] → p.t = q.t) ∧
  (p.op.toNat ∈ [0x06, 0x07] → p.val = q.val) ∧
  (p.op.toNat = 0x10 → p.cmd = q.cmd ∧ p.ma = q.ma ∧ p.arg = q.arg) ∧
  (p.op.toNat ∈ [0x11, 0x12] → p.ibuf = q.ibuf ∧ p.ilen = q.ilen) ∧
  (p.op.toNat ∈ [0x13, 0x15] → p.id = q.id ∧ p.ma = q.ma) ∧
  (p.op.toNat = 0x14 → p.ma = q.ma ∧ p.mb = q.mb)

/-- The timestamp of an operation that reads `T` (R33). -/
def timestampOf : Instr → Option Word
  | .press t => some t
  | .release t => some t
  | .poll t => some t
  | .nop => none
  | .enable => none
  | .disable => none
  | .setlt _ => none
  | .setit _ => none
  | .encode _ _ _ => none
  | .decode _ _ => none
  | .cmdkind _ _ => none
  | .matchId _ _ => none
  | .clrbits _ _ => none
  | .selfunmask _ _ => none

/-- The environment's timestamp obligations (R234) on operations with the real time of each, in milliseconds: every timestamp
is the clock at its operation's real time (a), real times do not go back (b), and less than one full wrap passes between
successive ones (c). `last` is the real time of the one before. DESIGN CHOICE (assumption 23): R234 does not say which operations
are timer-using, and here every PRESS, RELEASE and POLL is, in every state, also where it touches no timer mark. -/
def ClockObeyed (last : Option Nat) : List (Nat × Instr) → Prop
  | [] => True
  | (r, i) :: rest =>
    match timestampOf i with
    | none => ClockObeyed last rest
    | some t =>
      t = BitVec.ofNat 32 r ∧ (∀ l, last = some l → l ≤ r ∧ r - l < 2 ^ 32) ∧ ClockObeyed (some r) rest

/-- The polling obligation (R236): an environment that presents operation `script n` at step `n` polls again and again. -/
def PollsForever (script : Nat → Instr) : Prop := ∀ n, ∃ k, n ≤ k ∧ ∃ t, script k = .poll t

/-- No press is lost (R237): whenever PRESS comes in Released, the inter-tap window is still open. -/
def NoPressLost : List Instr → State → Prop
  | [], _ => True
  | i :: is, s =>
    (∀ t, i = .press t → s.cls.st = .released → ticksBetween s.cls.tm.start t < s.cls.it.toNat) ∧
      ∀ s', exec i s = .next s' → NoPressLost is s'

/-- An edge or a poll: the operations a Disabled block absorbs (R134). -/
abbrev IsEdgeOrPoll (i : Instr) : Prop := timestampOf i ≠ none

/-- An edge (R18). -/
def IsEdge (i : Instr) : Prop := (∃ t, i = .press t) ∨ ∃ t, i = .release t

/-- Each tap of `taps` starts less than `it` ticks after the release before it, the first one less than `it` after `r` (R17,
R122). -/
def GapsWithin (it : Word) (r : Word) : List (Word × Word) → Prop
  | [] => True
  | (a, b) :: rest => ticksBetween r a < it.toNat ∧ GapsWithin it b rest

/-- The release time of the last tap, `r` if there is none. -/
def lastRelease (r : Word) : List (Word × Word) → Word
  | [] => r
  | (_, b) :: rest => lastRelease b rest

end Sys2Proof.Machine
end

