-- ==== Sys2Proof/Certificates/Slice0/Obligations.lean ====
section
/-! DEFINITION. The statements for the provers. Each docstring names the rules it formalises. -/

open Sys2Proof Sys2Proof.Machine

-- Reset, steps and decoding

/-- R39: after reset every piece of state holds the listed value. -/
def Obligations.ResetLeavesTheListedValues : Prop :=
  State.reset.cls.st = .disabled ∧ State.reset.cls.cnt = 0 ∧ State.reset.cls.lt = 0 ∧ State.reset.cls.it = 0 ∧
  State.reset.cls.tm.start = 0 ∧ State.reset.cls.tm.now = 0 ∧
  State.reset.codec.rMask = 0 ∧ State.reset.codec.rArg = 0 ∧ State.reset.codec.rValid = false ∧
  State.reset.codec.rBool = false ∧ State.reset.codec.rCmd = 0 ∧ State.reset.codec.obuf = [] ∧
  State.reset.codec.olen = 0 ∧
  State.reset.out.evtKind = .none ∧ State.reset.out.evtCount = 0 ∧ State.reset.out.err = false

/-- R21, R60, R75: when the ports at the head of the feed decode to an operation, the step is that operation's meaning, on the
state with the head of the feed taken. That the presentations stand in a list is the model's choice (assumption 2). -/
def Obligations.StepRunsTheDecodedOperation : Prop :=
  ∀ (s : State) (p : Ports) (rest : List Stimulus) (i : Instr),
    s.feed = .op p :: rest → decode p = .ok i → step s = exec i { s with feed := rest }

/-- R76: the 242 reserved codes set `err`, show no event, and change nothing else. -/
def Obligations.ReservedCodesSetErrAndChangeNothingElse : Prop :=
  (∀ (s : State) (p : Ports) (rest : List Stimulus), s.feed = .op p :: rest → IsReserved p.op →
    step s = .next { s with out := ⟨.none, 0, true⟩, feed := rest }) ∧
  ((List.range 256).filter fun n => decodeTableWord 8 n = none).length = 242 ∧
  ∀ op : Byte, IsReserved op ↔ decodeTableWord 8 op.toNat = none

/-- R230 and assumption 3 (the model's choice): with nothing presented the block waits and nothing changes. -/
def Obligations.StepWaitsWhenNothingIsPresented : Prop :=
  ∀ s : State, s.feed = [] → step s = .next s

/-- R230: reset puts every register in its reset value. That it arrives as an entry of the feed is the model's choice
(assumption 4). -/
def Obligations.ResetStimulusRestoresEveryRegister : Prop :=
  ∀ (s : State) (rest : List Stimulus), s.feed = .reset :: rest → step s = .next { State.reset with feed := rest }

/-- R73, R75: each defined code selects its operation with the values of its format's ports, every other code is reserved. -/
def Obligations.DecodingFollowsTheOpcodeMap : Prop :=
  ∀ p : Ports,
    (p.op = 0x00 → decode p = .ok .nop) ∧
    (p.op = 0x01 → decode p = .ok (.press p.t)) ∧
    (p.op = 0x02 → decode p = .ok (.release p.t)) ∧
    (p.op = 0x03 → decode p = .ok (.poll p.t)) ∧
    (p.op = 0x04 → decode p = .ok .enable) ∧
    (p.op = 0x05 → decode p = .ok .disable) ∧
    (p.op = 0x06 → decode p = .ok (.setlt p.val)) ∧
    (p.op = 0x07 → decode p = .ok (.setit p.val)) ∧
    (p.op = 0x10 → decode p = .ok (.encode p.cmd p.ma p.arg)) ∧
    (p.op = 0x11 → decode p = .ok (.decode p.ibuf p.ilen)) ∧
    (p.op = 0x12 → decode p = .ok (.cmdkind p.ibuf p.ilen)) ∧
    (p.op = 0x13 → decode p = .ok (.matchId p.id p.ma)) ∧
    (p.op = 0x14 → decode p = .ok (.clrbits p.ma p.mb)) ∧
    (p.op = 0x15 → decode p = .ok (.selfunmask p.id p.ma)) ∧
    (IsReserved p.op → decode p = .error (.reservedCode p.op))

/-- R70 to R74: decode after encode is the identity on every operation, with every operand at every value; and what decodes
to an operation carries that operation's code and operands on the ports its format reads. -/
def Obligations.DecodeAndEncodeAgree : Prop :=
  (∀ i : Instr, decode (encode i) = .ok i) ∧
  ∀ (p : Ports) (i : Instr), decode p = .ok i → SameReadPorts p (encode i)

/-- R73: ports outside an operation's format have no effect on the step. -/
def Obligations.PortsOutsideTheFormatHaveNoEffect : Prop :=
  ∀ (s : State) (p q : Ports) (rest : List Stimulus), SameReadPorts p q →
    step { s with feed := .op p :: rest } = step { s with feed := .op q :: rest }

/-- R35, R56: two inputs that agree on the first ILEN bytes of IBUF give the same result. -/
def Obligations.BytesBeyondIlenAreNeverRead : Prop :=
  ∀ (b c : List Byte) (n : Byte) (s : State), n.toNat ≤ b.length → n.toNat ≤ c.length →
    b.take n.toNat = c.take n.toNat →
    exec (.decode b n) s = exec (.decode c n) s ∧ exec (.cmdkind b n) s = exec (.cmdkind c n) s

/-- R60: a feed of presented operations runs as those operations one after the other, each on the state the one before it
left. -/
def Obligations.FeedRunsInOrder : Prop :=
  ∀ (is : List Instr) (s : State) (rest : List Stimulus), s.feed = presentAll is ++ rest →
    Host.Core.run core is.length s = performAll is { s with feed := rest }

-- The Monotonic Timer, for every width

/-- R101, R104 (and TimerMarkLast of R103): the marks that TimerMarkAll and TimerMarkLast leave, and the value of TimerDelta. -/
def Obligations.MarkAllMarkLastAndDelta : Prop :=
  ∀ (w : Nat) (t : BitVec w) (tm : Timer w),
    tm.markAll t = ⟨t, t⟩ ∧ tm.markLast = ⟨tm.now, tm.now⟩ ∧
    (tm.start ≤ tm.now → tm.delta.toNat = tm.now.toNat - tm.start.toNat)

/-- R102: TimerMarkNow corrects a clock below the start mark by the exact sum, and takes any other clock as it is. -/
def Obligations.TimerMarkNowCorrectsOneWrap : Prop :=
  ∀ (w : Nat) (t : BitVec w) (tm : Timer w),
    (t < tm.start → (tm.markNow t).start = 0 ∧
      (tm.markNow t).now.toNat = t.toNat + ((2 ^ w - 1) - tm.start.toNat) + 1) ∧
    (tm.start ≤ t → (tm.markNow t).start = tm.start ∧ (tm.markNow t).now = t)

/-- R106: after a mark at real time `s`, the elapsed time read `e` milliseconds later is exactly `e`, for every `e` up to MAX. -/
def Obligations.ElapsedIsExactUnderOneWrap : Prop :=
  ∀ (w s e : Nat) (tm : Timer w), e ≤ 2 ^ w - 1 →
    ((tm.markAll (BitVec.ofNat w s)).elapsed (BitVec.ofNat w (s + e))).1.toNat = e

/-- R109: after a wrap correction a second TimerMarkNow measures from clock value 0, and under-reports the time since the mark
by `MAX - s + 1`. -/
def Obligations.SecondReadAfterAWrapMeasuresFromZero : Prop :=
  ∀ (w : Nat) (s t1 t2 : BitVec w) (tm : Timer w), t1 < s →
    let first := (tm.markAll s).markNow t1
    first.markNow t2 = ⟨0, t2⟩ ∧ (first.markNow t2).delta = t2 ∧
    (first.markNow t2).delta.toNat + ((2 ^ w - 1) - s.toNat + 1) = (2 ^ w - s.toNat) + t2.toNat

/-- R107: after reset and after every primitive the start mark is at or below the now mark. TimerMarkAll and TimerMarkLast make
them equal, and TimerMarkNow sets `tm_now = t >= tm_start` or `tm_start = 0`. -/
def Obligations.EveryPrimitiveOrdersTheMarks : Prop :=
  ∀ (w : Nat) (t : BitVec w) (tm : Timer w),
    (Classifier.reset w).tm.start ≤ (Classifier.reset w).tm.now ∧
    (tm.markAll t).start = (tm.markAll t).now ∧ tm.markLast.start = tm.markLast.now ∧
    (tm.markNow t).start ≤ (tm.markNow t).now ∧
    (((tm.markNow t).now = t ∧ tm.start ≤ t) ∨ (tm.markNow t).start = 0)

-- The classifier operations

/-- R121 and R40: NOP clears the outputs and changes nothing else. -/
def Obligations.NopOnlyClearsTheOutputs : Prop :=
  (∀ p : Ports, p.op = 0x00 → decode p = .ok .nop) ∧
  ∀ s : State, exec .nop s = .next { s with out := ⟨.none, 0, false⟩ }

/-- R122: PRESS in every state, with its whole effect. -/
def Obligations.PressFollowsItsRule : Prop :=
  (∀ p : Ports, p.op = 0x01 → decode p = .ok (.press p.t)) ∧
  ∀ (t : Word) (s : State),
    (s.cls.st = .idle →
      exec (.press t) s =
        .next { s with cls := { s.cls with st := .pressed, tm := ⟨t, t⟩ }, out := ⟨.none, 0, false⟩ }) ∧
    (s.cls.st = .released → ticksBetween s.cls.tm.start t < s.cls.it.toNat →
      exec (.press t) s =
        .next { s with cls := { s.cls with st := .pressed, tm := ⟨t, t⟩ }, out := ⟨.none, 0, false⟩ }) ∧
    (s.cls.st = .released → s.cls.it.toNat ≤ ticksBetween s.cls.tm.start t →
      exec (.press t) s =
        .next { s with cls := { s.cls with tm := refreshedMarks t s.cls.tm }, out := ⟨.none, 0, false⟩ }) ∧
    (s.cls.st = .pressed ∨ s.cls.st = .disabled →
      exec (.press t) s = .next { s with out := ⟨.none, 0, false⟩ })

/-- R125: RELEASE in every state, with its whole effect; the count saturates at 0xFFFF (R23). -/
def Obligations.ReleaseFollowsItsRule : Prop :=
  (∀ p : Ports, p.op = 0x02 → decode p = .ok (.release p.t)) ∧
  ∀ (t : Word) (s : State),
    (s.cls.st = .pressed →
      (s.cls.cnt ≠ 0 ∨ ticksBetween s.cls.tm.start t < s.cls.lt.toNat ∨ s.cls.lt = 0) →
      exec (.release t) s =
        .next { s with
          cls := { s.cls with
            st := .released, cnt := if s.cls.cnt = 0xFFFF then 0xFFFF else s.cls.cnt + 1, tm := ⟨t, t⟩ },
          out := ⟨.none, 0, false⟩ }) ∧
    (s.cls.st = .pressed → s.cls.cnt = 0 → s.cls.lt ≠ 0 → s.cls.lt.toNat ≤ ticksBetween s.cls.tm.start t →
      exec (.release t) s =
        .next { s with
          cls := { s.cls with st := .idle, tm := refreshedMarks t s.cls.tm }, out := ⟨.long, 0, false⟩ }) ∧
    (s.cls.st = .idle ∨ s.cls.st = .released ∨ s.cls.st = .disabled →
      exec (.release t) s = .next { s with out := ⟨.none, 0, false⟩ })

/-- R128 and R129: POLL in every state, with its whole effect. -/
def Obligations.PollFollowsItsRule : Prop :=
  (∀ p : Ports, p.op = 0x03 → decode p = .ok (.poll p.t)) ∧
  ∀ (t : Word) (s : State),
    (s.cls.st = .released → s.cls.it.toNat ≤ ticksBetween s.cls.tm.start t →
      exec (.poll t) s =
        .next { s with
          cls := { s.cls with st := .idle, cnt := 0, tm := refreshedMarks t s.cls.tm },
          out := ⟨.short, s.cls.cnt, false⟩ }) ∧
    (s.cls.st = .released → ticksBetween s.cls.tm.start t < s.cls.it.toNat →
      exec (.poll t) s =
        .next { s with cls := { s.cls with tm := refreshedMarks t s.cls.tm }, out := ⟨.none, 0, false⟩ }) ∧
    (s.cls.st = .idle ∨ s.cls.st = .pressed ∨ s.cls.st = .disabled →
      exec (.poll t) s = .next { s with out := ⟨.none, 0, false⟩ })

/-- R131 and R132: ENABLE leaves Disabled for Idle with the count 0, and changes nothing elsewhere. -/
def Obligations.EnableLeavesOnlyDisabled : Prop :=
  (∀ p : Ports, p.op = 0x04 → decode p = .ok .enable) ∧
  ∀ s : State,
    (s.cls.st = .disabled →
      exec .enable s = .next { s with cls := { s.cls with st := .idle, cnt := 0 }, out := ⟨.none, 0, false⟩ }) ∧
    (s.cls.st ≠ .disabled → exec .enable s = .next { s with out := ⟨.none, 0, false⟩ })

/-- R133: DISABLE enters Disabled from any state with the count 0 and no event, keeping the timer and the thresholds. -/
def Obligations.DisableDiscardsTheSequence : Prop :=
  (∀ p : Ports, p.op = 0x05 → decode p = .ok .disable) ∧
  ∀ s : State,
    exec .disable s = .next { s with cls := { s.cls with st := .disabled, cnt := 0 }, out := ⟨.none, 0, false⟩ }

/-- R135 and R136: SETLT and SETIT write their threshold in every state, and nothing else. -/
def Obligations.ThresholdsAreWrittenInEveryState : Prop :=
  (∀ p : Ports, (p.op = 0x06 → decode p = .ok (.setlt p.val)) ∧ (p.op = 0x07 → decode p = .ok (.setit p.val))) ∧
  ∀ (v : Word) (s : State),
    exec (.setlt v) s = .next { s with cls := { s.cls with lt := v }, out := ⟨.none, 0, false⟩ } ∧
    exec (.setit v) s = .next { s with cls := { s.cls with it := v }, out := ⟨.none, 0, false⟩ }

-- The codec operations

/-- R160: ENCODE writes the payload, name, separator, prefix, mask digits, separator and decimal argument, and its length; with
command code 3 it sets `err` and empties OBUF. -/
def Obligations.EncodeWritesThePayload : Prop :=
  (∀ p : Ports, p.op = 0x10 → decode p = .ok (.encode p.cmd p.ma p.arg)) ∧
  ∀ (cmd : BitVec 2) (m : Mask) (a : BitVec 16) (s : State),
    (∀ name : List Byte,
      (cmd = 0 ∧ name = [0x66, 0x73, 0x74]) ∨ (cmd = 1 ∧ name = [0x66, 0x6C, 0x74]) ∨
        (cmd = 2 ∧ name = [0x74, 0x6F, 0x66]) →
      exec (.encode cmd m a) s =
        .next { s with
          codec := { s.codec with
            obuf := name ++ [0x2F, 0x30, 0x78] ++ hex16 m ++ [0x2F] ++ decArg a,
            olen := BitVec.ofNat 8 (name ++ [0x2F, 0x30, 0x78] ++ hex16 m ++ [0x2F] ++ decArg a).length },
          out := ⟨.none, 0, false⟩ }) ∧
    (cmd = 3 →
      exec (.encode cmd m a) s =
        .next { s with codec := { s.codec with obuf := [], olen := 0 }, out := ⟨.none, 0, true⟩ })

/-- R161: digit `k` of the mask field is the lowercase digit of nibble `15 - k`, so the least significant nibble is last. -/
def Obligations.MaskDigitsAreMostSignificantFirst : Prop :=
  ∀ m : Mask, (hex16 m).length = 16 ∧
    ∀ k : Nat, k < 16 → ∃ c : Byte, (hex16 m)[k]? = some c ∧
      c.toNat =
        (if m.toNat / 16 ^ (15 - k) % 16 ≤ 9 then 0x30 + m.toNat / 16 ^ (15 - k) % 16
          else 0x61 + (m.toNat / 16 ^ (15 - k) % 16 - 10))

/-- R162: the argument field is `"0"` for 0; else the digits of `a / 10`, none if that is 0, before the digit of `a mod 10`. -/
def Obligations.ArgumentDigitsFollowTheirRule : Prop :=
  decArg 0 = [0x30] ∧
  ∀ a : BitVec 16, a ≠ 0 →
    decArg a =
      (if a.toNat / 10 = 0 then [] else decArg (BitVec.ofNat 16 (a.toNat / 10))) ++
        [BitVec.ofNat 8 (0x30 + a.toNat % 10)]

/-- R163: OLEN is 23 plus the digit count of the argument, so it is 24 to 28, and OBUF holds exactly OLEN bytes. -/
def Obligations.EncodeLengthIs23PlusTheDigits : Prop :=
  ∀ (cmd : BitVec 2) (m : Mask) (a : BitVec 16) (s : State), cmd ≠ 3 →
    ∃ t, exec (.encode cmd m a) s = .next t ∧ t.codec.obuf.length = t.codec.olen.toNat ∧
      t.codec.olen.toNat =
        23 + (if a.toNat ≤ 9 then 1 else if a.toNat ≤ 99 then 2 else if a.toNat ≤ 999 then 3
          else if a.toNat ≤ 9999 then 4 else 5)

/-- R167: DECODE of 19 bytes or fewer writes `r_valid`, `r_mask` and `r_arg` with 0, and a MATCH with that `r_mask` then gives 0
for every identifier. -/
def Obligations.DecodeOfAShortBodyIsInvalid : Prop :=
  ∀ (b : List Byte) (n : Byte) (s : State), n.toNat ≤ 19 →
    exec (.decode b n) s =
      .next { s with codec := { s.codec with rValid := false, rMask := 0, rArg := 0 }, out := ⟨.none, 0, false⟩ } ∧
    ∀ (id : BitVec 7) (t : State), exec (.decode b n) s = .next t →
      ∃ u, exec (.matchId id t.codec.rMask) t = .next u ∧ u.codec.rBool = false

/-- R164, R166: DECODE of a longer body is valid, whatever its bytes. Mask bits `[63-4k : 60-4k]` are the nibble of byte
`2 + k`, and the argument is the decimal value of the bytes from 19 on, modulo `2^16`, or 0 if one of them is no digit. -/
def Obligations.DecodeReadsTheMaskAndTheCount : Prop :=
  (∀ p : Ports, p.op = 0x11 → decode p = .ok (.decode p.ibuf p.ilen)) ∧
  ∀ (b : List Byte) (n : Byte) (s : State), 19 < n.toNat → n.toNat ≤ b.length →
    ∃ (mk : Mask) (a : BitVec 16),
      exec (.decode b n) s =
        .next { s with codec := { s.codec with rValid := true, rMask := mk, rArg := a }, out := ⟨.none, 0, false⟩ } ∧
      (∀ k : Nat, k < 16 → ∃ c, b[2 + k]? = some c ∧ mk.extractLsb' (60 - 4 * k) 4 = hexval c) ∧
      ((∀ c ∈ (b.take n.toNat).drop 19, 0x30 ≤ c.toNat ∧ c.toNat ≤ 0x39) →
        a.toNat = ((b.take n.toNat).drop 19).foldl (fun v c => v * 10 + (c.toNat - 0x30)) 0 % 2 ^ 16) ∧
      ((∃ c ∈ (b.take n.toNat).drop 19, c.toNat < 0x30 ∨ 0x39 < c.toNat) → a = 0)

/-- R165: the permissive nibble decoder on every byte. -/
def Obligations.HexDigitsReadInEitherCase : Prop :=
  ∀ c : Byte,
    (0x30 ≤ c.toNat → c.toNat ≤ 0x39 → (hexval c).toNat = c.toNat - 0x30) ∧
    (0x61 ≤ c.toNat → c.toNat ≤ 0x66 → (hexval c).toNat = c.toNat - 0x61 + 10) ∧
    (0x41 ≤ c.toNat → c.toNat ≤ 0x46 → (hexval c).toNat = c.toNat - 0x41 + 10) ∧
    (¬ (0x30 ≤ c.toNat ∧ c.toNat ≤ 0x39) → ¬ (0x61 ≤ c.toNat ∧ c.toNat ≤ 0x66) →
      ¬ (0x41 ≤ c.toNat ∧ c.toNat ≤ 0x46) → hexval c = 0)

/-- R168: CMDKIND reports 0, 1 or 2 for a payload that starts with `fst/`, `flt/` or `tof/`, byte for byte, and 3 otherwise. -/
def Obligations.CmdkindRecognisesExactlyTheThreeNames : Prop :=
  (∀ p : Ports, p.op = 0x12 → decode p = .ok (.cmdkind p.ibuf p.ilen)) ∧
  ∀ (b : List Byte) (n : Byte) (s : State), n.toNat ≤ b.length →
    exec (.cmdkind b n) s =
      .next { s with
        codec := { s.codec with rCmd :=
          (if (b.take n.toNat).take 4 = [0x66, 0x73, 0x74, 0x2F] then 0
            else if (b.take n.toNat).take 4 = [0x66, 0x6C, 0x74, 0x2F] then 1
            else if (b.take n.toNat).take 4 = [0x74, 0x6F, 0x66, 0x2F] then 2
            else 3) },
        out := ⟨.none, 0, false⟩ }

/-- R169: MATCH reads the mask bit `id - 1`, and gives 0 for the identifiers 0 and 65 to 127. -/
def Obligations.MatchReadsTheIdentifiersBit : Prop :=
  (∀ p : Ports, p.op = 0x13 → decode p = .ok (.matchId p.id p.ma)) ∧
  ∀ (id : BitVec 7) (m : Mask) (s : State),
    (1 ≤ id.toNat → id.toNat ≤ 64 →
      exec (.matchId id m) s =
        .next { s with
          codec := { s.codec with rBool := m.getLsbD (id.toNat - 1) }, out := ⟨.none, 0, false⟩ }) ∧
    (id.toNat = 0 ∨ 65 ≤ id.toNat →
      exec (.matchId id m) s = .next { s with codec := { s.codec with rBool := false }, out := ⟨.none, 0, false⟩ })

/-- R170: CLRBITS keeps exactly the bits of its first mask that its second lacks. -/
def Obligations.ClrbitsKeepsTheBitsTheOtherLacks : Prop :=
  (∀ p : Ports, p.op = 0x14 → decode p = .ok (.clrbits p.ma p.mb)) ∧
  ∀ (a b : Mask) (s : State), ∃ r : Mask,
    exec (.clrbits a b) s = .next { s with codec := { s.codec with rMask := r }, out := ⟨.none, 0, false⟩ } ∧
    r = a &&& ~~~b ∧ ∀ k : Nat, k < 64 → r.getLsbD k = (a.getLsbD k && !b.getLsbD k)

/-- R171: SELFUNMASK clears exactly the identifier's bit, and no bit for the identifiers 0 and 65 to 127. -/
def Obligations.SelfunmaskClearsTheIdentifiersBit : Prop :=
  (∀ p : Ports, p.op = 0x15 → decode p = .ok (.selfunmask p.id p.ma)) ∧
  ∀ (id : BitVec 7) (m : Mask) (s : State), ∃ r : Mask,
    exec (.selfunmask id m) s = .next { s with codec := { s.codec with rMask := r }, out := ⟨.none, 0, false⟩ } ∧
    (1 ≤ id.toNat → id.toNat ≤ 64 → ∀ k : Nat, k < 64 → r.getLsbD k = (m.getLsbD k && k + 1 != id.toNat)) ∧
    (id.toNat = 0 ∨ 65 ≤ id.toNat → r = m)

-- Laws of the codec

/-- R172: for every mask, argument and named command, DECODE of the encoded body gives back the mask and the argument, and
CMDKIND of the encoded payload the command. -/
def Obligations.WireRoundTripGivesBackEveryCommand : Prop :=
  ∀ (cmd : BitVec 2) (m : Mask) (a : BitVec 16) (s : State), cmd ≠ 3 →
    ∃ t u v, exec (.encode cmd m a) s = .next t ∧
      exec (.decode (t.codec.obuf.drop 4) (t.codec.olen - 4)) t = .next u ∧
      exec (.cmdkind t.codec.obuf t.codec.olen) u = .next v ∧
      v.codec.rValid = true ∧ v.codec.rMask = m ∧ v.codec.rArg = a ∧ v.codec.rCmd = cmd

/-- R173: a self-unmasked mask never matches its own identifier, nor does what CLRBITS leaves of it. -/
def Obligations.SelfUnmaskedMasksNeverMatchTheirOwner : Prop :=
  ∀ (id : BitVec 7) (m x : Mask) (s : State),
    ∃ t u v w, exec (.selfunmask id m) s = .next t ∧
      exec (.matchId id t.codec.rMask) t = .next u ∧ u.codec.rBool = false ∧
      exec (.clrbits t.codec.rMask x) u = .next v ∧
      exec (.matchId id v.codec.rMask) v = .next w ∧ w.codec.rBool = false

/-- R174: the AND-NOT of each of the sixteen nibbles apart gives the 64 bits of CLRBITS. -/
def Obligations.NibblewiseClearIsTheWholeClear : Prop :=
  ∀ (a b : Mask) (s : State), ∃ t, exec (.clrbits a b) s = .next t ∧
    ∀ k : Nat, k < 16 →
      t.codec.rMask.extractLsb' (4 * k) 4 = a.extractLsb' (4 * k) 4 &&& ~~~(b.extractLsb' (4 * k) 4)

/-- R178: the forwarded mask has no bit of the incoming mask and none that the channel's own mask lacks, and OBUF carries it. -/
def Obligations.ForwardedMaskAvoidsTheIncomingOne : Prop :=
  ∀ (cmd : BitVec 2) (own incoming : Mask) (count : BitVec 16) (s : State), cmd ≠ 3 →
    ∃ t name, forwardCommand cmd own incoming count s = .next t ∧ commandName cmd = some name ∧
      t.codec.obuf = encodePayload name t.codec.rMask count ∧
      t.codec.rMask &&& incoming = 0 ∧ t.codec.rMask &&& own = t.codec.rMask

/-- R175: a channel that receives an encoded command acts on it exactly when its identifier is a bit of the mask, and then
knows its kind and its count. -/
def Obligations.ReceiverActsExactlyWhenAddressed : Prop :=
  ∀ (cmd : BitVec 2) (m : Mask) (a : BitVec 16) (id : BitVec 7) (s t : State), cmd ≠ 3 →
    exec (.encode cmd m a) s = .next t →
    ∃ u, receiveCommand id t.codec.obuf t = .next u ∧ u.codec.rCmd = cmd ∧ u.codec.rArg = a ∧
      (receiveActs u = true ↔ 1 ≤ id.toNat ∧ id.toNat ≤ 64 ∧ m.getLsbD (id.toNat - 1) = true)

-- Sequences of taps

/-- R139: for `lt > 0` a first press held `lt - 1` is the first short tap of a sequence; held `lt` it is a long tap. With
`cnt >= 1` a subsequent press, however long held, is none. -/
def Obligations.LongTapBoundaryIsExact : Prop :=
  (∀ (s : State) (t0 : Word), s.cls.st = .idle → s.cls.cnt = 0 → s.cls.lt ≠ 0 →
    (∃ t, performAll (pseudoTap t0 (t0 + s.cls.lt - 1)) s = .next t ∧
      t.cls.st = .released ∧ t.cls.cnt = 1 ∧ t.out = ⟨.none, 0, false⟩) ∧
    (∃ t, performAll (pseudoTap t0 (t0 + s.cls.lt)) s = .next t ∧
      t.cls.st = .idle ∧ t.cls.cnt = 0 ∧ t.out = ⟨.long, 0, false⟩)) ∧
  ∀ (s : State) (a b : Word), 1 ≤ s.cls.cnt.toNat → TapEvent.long ∉ sampledEvents (pseudoTap a b) s

/-- R126: once a sequence holds a short tap, no press of it is ever a long tap, however long it is held. -/
def Obligations.TapsInsideASequenceAreNeverLong : Prop :=
  ∀ (is : List Instr) (s : State), s.cls.st = .released → s.cls.cnt ≠ 0 → (∀ i ∈ is, IsEdge i) →
    (∃ t, performAll is s = .next t) ∧ sampledEvents is s = []

/-- R127: with `lt = 0` every RELEASE in Pressed takes the short branch, and while `lt` is 0, that is until a SETLT, no
operation emits LONG. -/
def Obligations.NoLongTapWhileDetectionIsOff : Prop :=
  (∀ (s : State) (t : Word), s.cls.lt = 0 → s.cls.st = .pressed →
    ∃ u, exec (.release t) s = .next u ∧ u.cls.st = .released ∧ u.out = ⟨.none, 0, false⟩) ∧
  ∀ (is : List Instr) (s : State), s.cls.lt = 0 → (∀ i ∈ is, ∀ v, i ≠ .setlt v) →
    (∃ t, performAll is s = .next t) ∧ TapEvent.long ∉ sampledEvents is s

/-- R140: at most one event an operation, LONG only from RELEASE in Pressed, SHORT only from POLL in Released with the count it
held; and whatever emits an event leaves Idle with the count 0. -/
def Obligations.EventsComeFromReleaseAndPollAndLeaveIdle : Prop :=
  ∀ (i : Instr) (s t : State), exec i s = .next t →
    (t.out.evtKind = .long → (∃ u, i = .release u) ∧ s.cls.st = .pressed) ∧
    (t.out.evtKind = .short → (∃ u, i = .poll u) ∧ s.cls.st = .released ∧ t.out.evtCount = s.cls.cnt) ∧
    (t.out.evtKind ≠ .none → t.cls.st = .idle ∧ t.cls.cnt = 0)

/-- R140 with R23: a sequence of `n` taps inside the window, the first one short, ends at the first poll after the window in
exactly one event, SHORT with the count `n` (saturated), and leaves Idle. -/
def Obligations.TapSequenceEndsInOneShortTap : Prop :=
  ∀ (s : State) (a b t : Word) (taps : List (Word × Word)), s.cls.st = .idle → s.cls.cnt = 0 →
    (ticksBetween a b < s.cls.lt.toNat ∨ s.cls.lt = 0) → GapsWithin s.cls.it b taps →
    s.cls.it.toNat ≤ ticksBetween (lastRelease b taps) t →
    (∃ u, performAll (tapSequence ((a, b) :: taps) ++ [.poll t]) s = .next u ∧ u.cls.st = .idle ∧ u.cls.cnt = 0) ∧
    sampledEvents (tapSequence ((a, b) :: taps) ++ [.poll t]) s =
      [.short (BitVec.ofNat 16 (min (taps.length + 1) 0xFFFF))]

/-- R123 and R235 (d): a press after the window has closed is lost with its release and emits nothing, whether or not the clock
wrapped since the mark. Where that press saw no wrap, the next poll ends the sequence with its own count, if its timestamp is at
or after the press's, or below the mark after one wrap. (The clock from the mark up to the press is left out: there it has come
round past the mark.) Where the press saw the wrap, the window is measured from clock value 0, and the next poll ends the
sequence exactly when its timestamp has reached `it`. -/
def Obligations.PressAfterTheWindowIsLost : Prop :=
  ∀ (s : State) (a r : Word), s.cls.st = .released → s.cls.it.toNat ≤ ticksBetween s.cls.tm.start a →
    (∃ t, performAll (pseudoTap a r) s = .next t ∧ t.cls.st = .released ∧ t.cls.cnt = s.cls.cnt ∧
      t.out = ⟨.none, 0, false⟩) ∧
    sampledEvents (pseudoTap a r) s = [] ∧
    ∀ p : Word, ∃ t, performAll (pseudoTap a r ++ [.poll p]) s = .next t ∧
      (s.cls.tm.start ≤ a → a ≤ p ∨ p < s.cls.tm.start →
        t.cls.st = .idle ∧ t.cls.cnt = 0 ∧ t.out = ⟨.short, s.cls.cnt, false⟩) ∧
      (a < s.cls.tm.start → s.cls.it ≤ p →
        t.cls.st = .idle ∧ t.cls.cnt = 0 ∧ t.out = ⟨.short, s.cls.cnt, false⟩) ∧
      (a < s.cls.tm.start → p < s.cls.it →
        t.cls.st = .released ∧ t.cls.cnt = s.cls.cnt ∧ t.out = ⟨.none, 0, false⟩)

/-- R138: with `it = 0` no press continues a sequence, and every tap is one event: LONG, or SHORT(1) at the first poll. -/
def Obligations.ZeroWindowMakesEveryTapOneEvent : Prop :=
  (∀ (s : State) (t : Word), s.cls.it = 0 → s.cls.st = .released →
    ∃ u, exec (.press t) s = .next u ∧ u.cls.st = .released ∧ u.cls.cnt = s.cls.cnt) ∧
  ∀ (s : State) (a b c : Word), s.cls.st = .idle → s.cls.cnt = 0 → s.cls.it = 0 →
    (∃ u, performAll (pseudoTap a b ++ [.poll c]) s = .next u ∧ u.cls.st = .idle) ∧
    sampledEvents (pseudoTap a b ++ [.poll c]) s =
      if s.cls.lt ≠ 0 ∧ s.cls.lt.toNat ≤ ticksBetween a b then [.long] else [.short 1]

/-- R235 (c): a poll that sees the wrap while the window is open leaves the start mark at 0, and the sequence then ends exactly
when the clock itself reaches `it`. -/
def Obligations.WrapInsideTheWindowRestartsItFromZero : Prop :=
  ∀ (s : State) (t1 t2 : Word), s.cls.st = .released → t1 < s.cls.tm.start →
    t1.toNat + (2 ^ 32 - s.cls.tm.start.toNat) < s.cls.it.toNat →
    (∃ t, exec (.poll t1) s = .next t ∧ t.cls.st = .released ∧ t.cls.tm.start = 0 ∧
      t.cls.tm.now.toNat = t1.toNat + (2 ^ 32 - s.cls.tm.start.toNat)) ∧
    ∃ u, performAll [.poll t1, .poll t2] s = .next u ∧
      (s.cls.it ≤ t2 → u.cls.st = .idle ∧ u.out = ⟨.short, s.cls.cnt, false⟩) ∧
      (t2 < s.cls.it → u.cls.st = .released ∧ u.out = ⟨.none, 0, false⟩)

/-- R234 with R139: under the environment's timestamp obligations the hold of a first press is measured in real time. -/
def Obligations.HoldIsRealTimeUnderTheClockObligations : Prop :=
  ∀ (s : State) (r0 r1 : Nat) (t0 t1 : Word), s.cls.st = .idle → s.cls.cnt = 0 →
    ClockObeyed none [(r0, .press t0), (r1, .release t1)] →
    ∃ t, performAll [.press t0, .release t1] s = .next t ∧
      (t.out.evtKind = .long ↔ s.cls.lt ≠ 0 ∧ s.cls.lt.toNat ≤ r1 - r0)

/-- R86 with R132 and R133: RESTART discards any sequence without an event, of DISABLE or of ENABLE, and leaves Idle, from every
state. -/
def Obligations.RestartDiscardsAnySequence : Prop :=
  ∀ s : State, performAll pseudoRestart s =
    .next { s with cls := { s.cls with st := .idle, cnt := 0 }, out := ⟨.none, 0, false⟩ } ∧
    sampledEvents pseudoRestart s = []

/-- R231: the boot sequence from reset leaves Idle with both thresholds configured, whatever masks are self-unmasked. -/
def Obligations.BootSequenceConfiguresTheChannel : Prop :=
  ∀ (lt it : Word) (id : BitVec 7) (masks : List Mask), ∃ t,
    performAll (bootSequence lt it id masks) State.reset = .next t ∧
    t.cls = { st := .idle, cnt := 0, lt := lt, it := it, tm := ⟨0, 0⟩ } ∧ sampledEvents (bootSequence lt it id masks) State.reset = []

-- Rules about the whole machine

/-- R200: every operation on every state yields a next state, and so does every step. -/
def Obligations.EveryOperationCompletes : Prop :=
  (∀ (i : Instr) (s : State), ∃ t, exec i s = .next t) ∧ ∀ s : State, ∃ t, step s = .next t

/-- R217 and R22: the only step that leaves Disabled performs ENABLE. -/
def Obligations.OnlyEnableLeavesDisabled : Prop :=
  ∀ s t : State, s.cls.st = .disabled → step s = .next t → t.cls.st ≠ .disabled →
    ∃ (p : Ports) (rest : List Stimulus), s.feed = .op p :: rest ∧ p.op = 0x04

/-- R134: edges and polls in Disabled, however many, change no register and emit nothing. -/
def Obligations.DisabledAbsorbsEdgesAndPolls : Prop :=
  ∀ (i : Instr) (is : List Instr) (s : State), s.cls.st = .disabled → (∀ j ∈ i :: is, IsEdgeOrPoll j) →
    performAll (i :: is) s = .next { s with out := ⟨.none, 0, false⟩ } ∧ sampledEvents (i :: is) s = []

/-- R22 to R31, R213: which operations write which register. -/
def Obligations.EachRegisterHasItsOwnWriters : Prop :=
  ∀ (i : Instr) (s t : State), exec i s = .next t →
    (t.cls.lt ≠ s.cls.lt → ∃ v, i = .setlt v) ∧
    (t.cls.it ≠ s.cls.it → ∃ v, i = .setit v) ∧
    (t.cls.cnt ≠ s.cls.cnt → (∃ u, i = .release u ∨ i = .poll u) ∨ i = .enable ∨ i = .disable) ∧
    (t.cls.tm ≠ s.cls.tm → ∃ u, i = .press u ∨ i = .release u ∨ i = .poll u) ∧
    (t.cls.st ≠ s.cls.st → (∃ u, i = .press u ∨ i = .release u ∨ i = .poll u) ∨ i = .enable ∨ i = .disable) ∧
    (t.codec.rMask ≠ s.codec.rMask →
      (∃ b n, i = .decode b n) ∨ (∃ a b, i = .clrbits a b) ∨ ∃ id m, i = .selfunmask id m) ∧
    (t.codec.rArg ≠ s.codec.rArg ∨ t.codec.rValid ≠ s.codec.rValid → ∃ b n, i = .decode b n) ∧
    (t.codec.rBool ≠ s.codec.rBool → ∃ id m, i = .matchId id m) ∧
    (t.codec.rCmd ≠ s.codec.rCmd → ∃ b n, i = .cmdkind b n) ∧
    (t.codec.obuf ≠ s.codec.obuf ∨ t.codec.olen ≠ s.codec.olen → ∃ c m a, i = .encode c m a) ∧
    (t.out.err = true → ∃ m a, i = .encode 3 m a) ∧
    t.feed = s.feed

/-- R28, R37, R40, R208: the two parts are independent. What an operation leaves in the classifier and on the outputs depends on the
classifier alone, what it leaves in the codec on the codec alone; unit 0 writes no codec register and sets no `err`, unit 1
writes no classifier register and emits no event. -/
def Obligations.ClassifierAndCodecAreIndependent : Prop :=
  ∀ (i : Instr) (s s' t t' : State), exec i s = .next t → exec i s' = .next t' →
    (s.cls = s'.cls → t.cls = t'.cls ∧ t.out = t'.out) ∧
    (s.codec = s'.codec → t.codec = t'.codec) ∧
    ((opcode i).toNat < 0x10 → t.codec = s.codec ∧ t.out.err = false) ∧
    (0x10 ≤ (opcode i).toNat → t.cls = s.cls ∧ t.out.evtKind = .none ∧ t.out.evtCount = 0)

/-- R56: every operation but PRESS, RELEASE and POLL, repeated with the same operands, gives the same result. -/
def Obligations.RepeatedOperationsGiveTheSameResult : Prop :=
  ∀ (i : Instr) (s t : State), ¬ IsEdgeOrPoll i → exec i s = .next t → exec i t = .next t

/-- R124 and R36: in Idle, in Disabled, and in Pressed inside a sequence, the hidden timer marks never show: whatever they hold,
every sequence of operations leaves the same visible outputs. -/
def Obligations.HiddenMarksNeverShowWhereNothingIsMeasured : Prop :=
  ∀ (is : List Instr) (s t t' : State) (tm : Timer 32),
    s.cls.st = .idle ∨ s.cls.st = .disabled ∨ (s.cls.st = .pressed ∧ s.cls.cnt ≠ 0) →
    performAll is s = .next t → performAll is { s with cls := { s.cls with tm := tm } } = .next t' →
    t.visible = t'.visible

/-- R62, R215: a step of one instance changes no other, and steps of two instances commute. -/
def Obligations.InstancesShareNoState : Prop :=
  (∀ (k j : Nat) (sys sys' : System), systemStep k sys = .next sys' → j ≠ k → sys'[j]? = sys[j]?) ∧
  ∀ (k j : Nat) (sys : System), k ≠ j → systemRun [k, j] sys = systemRun [j, k] sys

/-- R38, R29, R140, R163: the invariants of the block are kept by every step, from every state that has them. -/
def Obligations.EveryStepKeepsTheInvariants : Prop :=
  ∀ s t : State, s.Good → step s = .next t → t.Good

/-- R38, R39: the state after reset has the invariants. -/
def Obligations.ResetStateHasTheInvariants : Prop := State.reset.Good

/-- R85, R86: lines of the spec's own programs assemble to their operations. -/
def Obligations.AssembledLinesPresentTheirOperations : Prop :=
  assembleLine "PRESS   1000".toList = some [encode (.press 1000)] ∧
  assembleLine "ENCODE tof, 0x4, 1 ; EN-1".toList = some [encode (.encode 2 4 1)] ∧
  assembleLine "CONFIG 500, 300".toList = some [encode (.setlt 500), encode (.setit 300)] ∧
  assembleLine "CMDKIND \"on\"".toList = some [encode (.cmdkind [0x6F, 0x6E] 2)] ∧
  assembleLine ".OP 0x08".toList = some [{ op := 0x08 }]
end

