-- ==== Sys2Proof/Laws/State.lean ====
section
/-! SUPPORT. What each named operation leaves in each part of the state, so that no later proof unfolds a record update. -/

namespace Sys2Proof.Machine

@[simp] theorem beginOp_cls (s : State) : (beginOp s).cls = s.cls := rfl
@[simp] theorem beginOp_codec (s : State) : (beginOp s).codec = s.codec := rfl
@[simp] theorem beginOp_out (s : State) : (beginOp s).out = Outputs.cleared := rfl
@[simp] theorem beginOp_feed (s : State) : (beginOp s).feed = s.feed := rfl

@[simp] theorem emitShort_cls (c : BitVec 16) (s : State) : (emitShort c s).cls = s.cls := rfl
@[simp] theorem emitShort_codec (c : BitVec 16) (s : State) : (emitShort c s).codec = s.codec := rfl
@[simp] theorem emitShort_out (c : BitVec 16) (s : State) : (emitShort c s).out = { s.out with evtKind := .short, evtCount := c } := rfl
@[simp] theorem emitShort_feed (c : BitVec 16) (s : State) : (emitShort c s).feed = s.feed := rfl

@[simp] theorem emitLong_cls (s : State) : (emitLong s).cls = s.cls := rfl
@[simp] theorem emitLong_codec (s : State) : (emitLong s).codec = s.codec := rfl
@[simp] theorem emitLong_out (s : State) : (emitLong s).out = { s.out with evtKind := .long, evtCount := 0 } := rfl
@[simp] theorem emitLong_feed (s : State) : (emitLong s).feed = s.feed := rfl

@[simp] theorem raiseErr_cls (s : State) : (raiseErr s).cls = s.cls := rfl
@[simp] theorem raiseErr_codec (s : State) : (raiseErr s).codec = s.codec := rfl
@[simp] theorem raiseErr_out (s : State) : (raiseErr s).out = { s.out with err := true } := rfl
@[simp] theorem raiseErr_feed (s : State) : (raiseErr s).feed = s.feed := rfl

@[simp] theorem putClassifier_cls (c : Classifier 32) (s : State) : (putClassifier c s).cls = c := rfl
@[simp] theorem putClassifier_codec (c : Classifier 32) (s : State) : (putClassifier c s).codec = s.codec := rfl
@[simp] theorem putClassifier_out (c : Classifier 32) (s : State) : (putClassifier c s).out = s.out := rfl
@[simp] theorem putClassifier_feed (c : Classifier 32) (s : State) : (putClassifier c s).feed = s.feed := rfl

@[simp] theorem putMask_cls (m : Mask) (s : State) : (putMask m s).cls = s.cls := rfl
@[simp] theorem putMask_codec (m : Mask) (s : State) : (putMask m s).codec = { s.codec with rMask := m } := rfl
@[simp] theorem putMask_out (m : Mask) (s : State) : (putMask m s).out = s.out := rfl
@[simp] theorem putMask_feed (m : Mask) (s : State) : (putMask m s).feed = s.feed := rfl

@[simp] theorem putBool_cls (b : Bool) (s : State) : (putBool b s).cls = s.cls := rfl
@[simp] theorem putBool_codec (b : Bool) (s : State) : (putBool b s).codec = { s.codec with rBool := b } := rfl
@[simp] theorem putBool_out (b : Bool) (s : State) : (putBool b s).out = s.out := rfl
@[simp] theorem putBool_feed (b : Bool) (s : State) : (putBool b s).feed = s.feed := rfl

@[simp] theorem putCmd_cls (c : BitVec 2) (s : State) : (putCmd c s).cls = s.cls := rfl
@[simp] theorem putCmd_codec (c : BitVec 2) (s : State) : (putCmd c s).codec = { s.codec with rCmd := c } := rfl
@[simp] theorem putCmd_out (c : BitVec 2) (s : State) : (putCmd c s).out = s.out := rfl
@[simp] theorem putCmd_feed (c : BitVec 2) (s : State) : (putCmd c s).feed = s.feed := rfl

@[simp] theorem putDecoded_cls (v : Bool) (m : Mask) (a : BitVec 16) (s : State) : (putDecoded v m a s).cls = s.cls := rfl
@[simp] theorem putDecoded_codec (v : Bool) (m : Mask) (a : BitVec 16) (s : State) : (putDecoded v m a s).codec = { s.codec with rValid := v, rMask := m, rArg := a } := rfl
@[simp] theorem putDecoded_out (v : Bool) (m : Mask) (a : BitVec 16) (s : State) : (putDecoded v m a s).out = s.out := rfl
@[simp] theorem putDecoded_feed (v : Bool) (m : Mask) (a : BitVec 16) (s : State) : (putDecoded v m a s).feed = s.feed := rfl

@[simp] theorem putObuf_cls (b : List Byte) (s : State) : (putObuf b s).cls = s.cls := rfl
@[simp] theorem putObuf_codec (b : List Byte) (s : State) : (putObuf b s).codec = { s.codec with obuf := b, olen := BitVec.ofNat 8 b.length } := rfl
@[simp] theorem putObuf_out (b : List Byte) (s : State) : (putObuf b s).out = s.out := rfl
@[simp] theorem putObuf_feed (b : List Byte) (s : State) : (putObuf b s).feed = s.feed := rfl

@[simp] theorem resetBlock_cls (s : State) : (resetBlock s).cls = Classifier.reset 32 := rfl
@[simp] theorem resetBlock_codec (s : State) : (resetBlock s).codec = CodecRegs.reset := rfl
@[simp] theorem resetBlock_out (s : State) : (resetBlock s).out = Outputs.reset := rfl
@[simp] theorem resetBlock_feed (s : State) : (resetBlock s).feed = s.feed := rfl

@[simp] theorem emit_cls (ev : TapEvent) (s : State) : (emit ev s).cls = s.cls := by cases ev <;> rfl
@[simp] theorem emit_codec (ev : TapEvent) (s : State) : (emit ev s).codec = s.codec := by cases ev <;> rfl
@[simp] theorem emit_feed (ev : TapEvent) (s : State) : (emit ev s).feed = s.feed := by cases ev <;> rfl

/-- An emitted event is the only thing the cleared outputs show (R30, R40). -/
theorem emit_out_cleared (ev : TapEvent) (s : State) (h : s.out = Outputs.cleared) :
    (emit ev s).out =
      match ev with
      | .none => ⟨.none, 0, false⟩
      | .short c => ⟨.short, c, false⟩
      | .long => ⟨.long, 0, false⟩ := by
  cases ev <;> simp [emit, h, Outputs.cleared]

@[simp] theorem putTransition_cls (r : Classifier 32 × TapEvent) (s : State) : (putTransition r s).cls = r.1 := by
  simp [putTransition]
@[simp] theorem putTransition_codec (r : Classifier 32 × TapEvent) (s : State) : (putTransition r s).codec = s.codec := by
  simp [putTransition]
@[simp] theorem putTransition_feed (r : Classifier 32 × TapEvent) (s : State) : (putTransition r s).feed = s.feed := by
  simp [putTransition]

@[simp] theorem cleared_evtKind : Outputs.cleared.evtKind = .none := rfl
@[simp] theorem cleared_evtCount : Outputs.cleared.evtCount = 0 := rfl
@[simp] theorem cleared_err : Outputs.cleared.err = false := rfl

/-- A transition with no event leaves its registers and cleared outputs. -/
theorem putTransition_none (c : Classifier 32) (s : State) :
    putTransition (c, .none) (beginOp s) = { s with cls := c, out := ⟨.none, 0, false⟩ } := rfl

/-- A transition that emits SHORT. -/
theorem putTransition_short (c : Classifier 32) (n : BitVec 16) (s : State) :
    putTransition (c, .short n) (beginOp s) = { s with cls := c, out := ⟨.short, n, false⟩ } := rfl

/-- A transition that emits LONG. -/
theorem putTransition_long (c : Classifier 32) (s : State) :
    putTransition (c, .long) (beginOp s) = { s with cls := c, out := ⟨.long, 0, false⟩ } := rfl

/-- Two states agree when their four parts do. -/
theorem State.ext_parts {s t : State} (h1 : s.cls = t.cls) (h2 : s.codec = t.codec) (h3 : s.out = t.out)
    (h4 : s.feed = t.feed) : s = t := by
  cases s; cases t; simp_all

end Sys2Proof.Machine
end

