-- ==== Sys2Proof/Laws/Timer.lean ====
section
/-! SUPPORT. The timer primitives say once what they leave, for every width: the marks of TimerMarkNow in one modular
subtraction, and the elapsed time in ticks. -/

namespace Sys2Proof.Machine

variable {w : Nat}

@[simp] theorem markAll_start (t : BitVec w) (tm : Timer w) : (tm.markAll t).start = t := rfl
@[simp] theorem markAll_now (t : BitVec w) (tm : Timer w) : (tm.markAll t).now = t := rfl
@[simp] theorem markLast_start (tm : Timer w) : tm.markLast.start = tm.now := rfl
@[simp] theorem markLast_now (tm : Timer w) : tm.markLast.now = tm.now := rfl

/-- In the wrap branch the sum of R102 fits `w` bits. -/
theorem wrap_sum_lt {t s : BitVec w} (h : t < s) : t.toNat + (maxTicks w - s.toNat) + 1 < 2 ^ w := by
  have hs := s.isLt
  have ht : t.toNat < s.toNat := h
  simp only [maxTicks]
  omega

/-- The wrap branch's exact sum is the difference modulo `2^w` (R102). -/
theorem wrap_sum_eq_sub {t s : BitVec w} (h : t < s) :
    BitVec.ofNat w (t.toNat + (maxTicks w - s.toNat) + 1) = t - s := by
  apply BitVec.eq_of_toNat_eq
  have hs := s.isLt
  have ht : t.toNat < s.toNat := h
  rw [BitVec.toNat_ofNat, BitVec.toNat_sub, Nat.mod_eq_of_lt (wrap_sum_lt h)]
  have : 2 ^ w - s.toNat + t.toNat = t.toNat + (maxTicks w - s.toNat) + 1 := by
    simp only [maxTicks]; omega
  rw [this, Nat.mod_eq_of_lt (wrap_sum_lt h)]

/-- TimerMarkNow in one subtraction. -/
theorem markNow_eq_refreshed (t : BitVec w) (tm : Timer w) : tm.markNow t = refreshedMarks t tm := by
  unfold Timer.markNow refreshedMarks
  split
  · rename_i h; rw [wrap_sum_eq_sub h]
  · rfl

/-- TimerDelta after TimerMarkNow is the clock less the old start mark, modulo `2^w`. -/
theorem elapsed_fst (t : BitVec w) (tm : Timer w) : (tm.elapsed t).1 = t - tm.start := by
  simp only [Timer.elapsed, Timer.delta, markNow_eq_refreshed, refreshedMarks]
  split <;> simp

@[simp] theorem elapsed_snd (t : BitVec w) (tm : Timer w) : (tm.elapsed t).2 = refreshedMarks t tm := by
  simp [Timer.elapsed, markNow_eq_refreshed]

/-- A difference modulo `2^w` in ticks. -/
theorem sub_toNat_ticks (a b : BitVec w) : (b - a).toNat = ticksBetween a b := by
  have ha := a.isLt
  have hb := b.isLt
  rw [BitVec.toNat_sub, ticksBetween]
  split
  · rename_i h
    have h' : b.toNat < a.toNat := h
    rw [Nat.mod_eq_of_lt (by omega)]; omega
  · rename_i h
    have h' : a.toNat ≤ b.toNat := Nat.le_of_not_lt h
    have : 2 ^ w - a.toNat + b.toNat = (b.toNat - a.toNat) + 2 ^ w := by omega
    rw [this, Nat.add_mod_right, Nat.mod_eq_of_lt (by omega)]

/-- Elapsed in ticks. -/
theorem elapsed_ticks (t : BitVec w) (tm : Timer w) : (tm.elapsed t).1.toNat = ticksBetween tm.start t := by
  rw [elapsed_fst, sub_toNat_ticks]

/-- The comparison of an elapsed time with a threshold, in ticks. -/
theorem elapsed_lt_iff (t v : BitVec w) (tm : Timer w) : (tm.elapsed t).1 < v ↔ ticksBetween tm.start t < v.toNat := by
  rw [BitVec.lt_def, elapsed_ticks]

theorem le_elapsed_iff (t v : BitVec w) (tm : Timer w) : v ≤ (tm.elapsed t).1 ↔ v.toNat ≤ ticksBetween tm.start t := by
  rw [BitVec.le_def, elapsed_ticks]

/-- The refreshed marks are in order, whatever the marks were. -/
theorem refreshedMarks_ordered (t : BitVec w) (tm : Timer w) :
    (refreshedMarks t tm).start ≤ (refreshedMarks t tm).now := by
  unfold refreshedMarks
  split
  · simp [BitVec.le_def]
  · rename_i h; exact Nat.le_of_not_lt h

end Sys2Proof.Machine
end

