-- ==== Sys2Proof/Laws/Classifier.lean ====
section
/-! SUPPORT. The transitions of the classifier, one equation for each case, with every comparison in ticks. -/

namespace Sys2Proof.Machine

variable {w : Nat}

theorem press_idle (t : BitVec w) (c : Classifier w) (h : c.st = .idle) :
    c.press t = { c with st := .pressed, tm := ⟨t, t⟩ } := by
  simp [Classifier.press, h, Timer.markAll]

theorem press_continue (t : BitVec w) (c : Classifier w) (h : c.st = .released)
    (he : ticksBetween c.tm.start t < c.it.toNat) : c.press t = { c with st := .pressed, tm := ⟨t, t⟩ } := by
  simp [Classifier.press, h, elapsed_lt_iff, he, Timer.markAll]

theorem press_ignored (t : BitVec w) (c : Classifier w) (h : c.st = .released)
    (he : c.it.toNat ≤ ticksBetween c.tm.start t) : c.press t = { c with tm := refreshedMarks t c.tm } := by
  simp [Classifier.press, h, elapsed_lt_iff, Nat.not_lt.mpr he]

theorem press_noop (t : BitVec w) (c : Classifier w) (h : c.st = .pressed ∨ c.st = .disabled) : c.press t = c := by
  rcases h with h | h <;> simp [Classifier.press, h]

/-- The saturating count in one comparison. -/
theorem sat16_succ (n : BitVec 16) : sat16 (n.toNat + 1) = if n = 0xFFFF then 0xFFFF else n + 1 := by
  unfold sat16
  split
  · rename_i h; subst h; rfl
  · rename_i h
    have hn := n.isLt
    have : n.toNat ≠ 0xFFFF := fun e => h (BitVec.eq_of_toNat_eq e)
    rw [Nat.min_eq_left (by omega)]
    apply BitVec.eq_of_toNat_eq
    simp

theorem release_short (t : BitVec w) (c : Classifier w) (h : c.st = .pressed)
    (hs : c.cnt ≠ 0 ∨ ticksBetween c.tm.start t < c.lt.toNat ∨ c.lt = 0) :
    c.release t = ({ c with st := .released, cnt := sat16 (c.cnt.toNat + 1), tm := ⟨t, t⟩ }, .none) := by
  have : 0 < c.cnt ∨ (c.tm.elapsed t).1 < c.lt ∨ c.lt = 0 := by
    rcases hs with hs | hs | hs
    · exact .inl (Nat.pos_of_ne_zero fun e => hs (BitVec.eq_of_toNat_eq e))
    · exact .inr (.inl ((elapsed_lt_iff ..).mpr hs))
    · exact .inr (.inr hs)
  simp only [Classifier.release, h, if_pos this, Timer.markAll]

theorem release_long (t : BitVec w) (c : Classifier w) (h : c.st = .pressed) (hc : c.cnt = 0) (hl : c.lt ≠ 0)
    (he : c.lt.toNat ≤ ticksBetween c.tm.start t) :
    c.release t = ({ c with st := .idle, tm := refreshedMarks t c.tm }, .long) := by
  have : ¬ (0 < c.cnt ∨ (c.tm.elapsed t).1 < c.lt ∨ c.lt = 0) := by
    rw [elapsed_lt_iff, hc]
    exact fun hs => hs.elim (by decide) fun hs => hs.elim (Nat.not_lt.mpr he) hl
  simp only [Classifier.release, h, if_neg this, elapsed_snd]

theorem release_noop (t : BitVec w) (c : Classifier w) (h : c.st ≠ .pressed) : c.release t = (c, .none) := by
  unfold Classifier.release
  cases hst : c.st <;> simp_all

theorem poll_end (t : BitVec w) (c : Classifier w) (h : c.st = .released)
    (he : c.it.toNat ≤ ticksBetween c.tm.start t) :
    c.poll t = ({ c with st := .idle, cnt := 0, tm := refreshedMarks t c.tm }, .short c.cnt) := by
  simp [Classifier.poll, h, le_elapsed_iff, he]

theorem poll_open (t : BitVec w) (c : Classifier w) (h : c.st = .released)
    (he : ticksBetween c.tm.start t < c.it.toNat) : c.poll t = ({ c with tm := refreshedMarks t c.tm }, .none) := by
  simp [Classifier.poll, h, le_elapsed_iff, Nat.not_le.mpr he]

theorem poll_noop (t : BitVec w) (c : Classifier w) (h : c.st ≠ .released) : c.poll t = (c, .none) := by
  unfold Classifier.poll
  cases hst : c.st <;> simp_all

theorem enable_disabled (c : Classifier w) (h : c.st = .disabled) : c.enable = { c with st := .idle, cnt := 0 } := by
  simp [Classifier.enable, h]

theorem enable_noop (c : Classifier w) (h : c.st ≠ .disabled) : c.enable = c := by
  unfold Classifier.enable
  cases hst : c.st <;> simp_all

/-- Everything a RELEASE can do. -/
theorem release_cases (t : BitVec w) (c : Classifier w) :
    (c.st ≠ .pressed ∧ c.release t = (c, .none)) ∨
    (c.st = .pressed ∧ (c.cnt ≠ 0 ∨ ticksBetween c.tm.start t < c.lt.toNat ∨ c.lt = 0) ∧
      c.release t = ({ c with st := .released, cnt := sat16 (c.cnt.toNat + 1), tm := ⟨t, t⟩ }, .none)) ∨
    (c.st = .pressed ∧ c.cnt = 0 ∧ c.lt ≠ 0 ∧ c.lt.toNat ≤ ticksBetween c.tm.start t ∧
      c.release t = ({ c with st := .idle, tm := refreshedMarks t c.tm }, .long)) := by
  by_cases h : c.st = .pressed
  · by_cases hs : c.cnt ≠ 0 ∨ ticksBetween c.tm.start t < c.lt.toNat ∨ c.lt = 0
    · exact .inr (.inl ⟨h, hs, release_short t c h hs⟩)
    · simp only [not_or, not_not, Nat.not_lt] at hs
      exact .inr (.inr ⟨h, hs.1, hs.2.2, hs.2.1, release_long t c h hs.1 hs.2.2 hs.2.1⟩)
  · exact .inl ⟨h, release_noop t c h⟩

/-- Everything a PRESS can do. -/
theorem press_cases (t : BitVec w) (c : Classifier w) :
    ((c.st = .pressed ∨ c.st = .disabled) ∧ c.press t = c) ∨
    ((c.st = .idle ∨ c.st = .released ∧ ticksBetween c.tm.start t < c.it.toNat) ∧
      c.press t = { c with st := .pressed, tm := ⟨t, t⟩ }) ∨
    (c.st = .released ∧ c.it.toNat ≤ ticksBetween c.tm.start t ∧
      c.press t = { c with tm := refreshedMarks t c.tm }) := by
  rcases hst : c.st with _ | _ | _ | _
  · exact .inr (.inl ⟨.inl rfl, press_idle t c hst⟩)
  · exact .inl ⟨.inl rfl, press_noop t c (.inl hst)⟩
  · by_cases he : ticksBetween c.tm.start t < c.it.toNat
    · exact .inr (.inl ⟨.inr ⟨rfl, he⟩, press_continue t c hst he⟩)
    · exact .inr (.inr ⟨rfl, Nat.le_of_not_lt he, by rw [press_ignored t c hst (Nat.le_of_not_lt he), hst]⟩)
  · exact .inl ⟨.inr rfl, press_noop t c (.inr hst)⟩

/-- Everything a POLL can do. -/
theorem poll_cases (t : BitVec w) (c : Classifier w) :
    (c.st ≠ .released ∧ c.poll t = (c, .none)) ∨
    (c.st = .released ∧ ticksBetween c.tm.start t < c.it.toNat ∧
      c.poll t = ({ c with tm := refreshedMarks t c.tm }, .none)) ∨
    (c.st = .released ∧ c.it.toNat ≤ ticksBetween c.tm.start t ∧
      c.poll t = ({ c with st := .idle, cnt := 0, tm := refreshedMarks t c.tm }, .short c.cnt)) := by
  by_cases h : c.st = .released
  · by_cases he : ticksBetween c.tm.start t < c.it.toNat
    · exact .inr (.inl ⟨h, he, poll_open t c h he⟩)
    · exact .inr (.inr ⟨h, Nat.le_of_not_lt he, poll_end t c h (Nat.le_of_not_lt he)⟩)
  · exact .inl ⟨h, poll_noop t c h⟩

end Sys2Proof.Machine
end

