-- ==== Sys2Proof/Laws/Decode.lean ====
section
/-! SUPPORT. The decoder over the number of the code, and what it says of reserved codes. -/

namespace Sys2Proof.Laws

open Sys2Proof.Machine

/-- The unit field as a number (R71). -/
theorem opUnit_toNat (op : Byte) : (opUnit op).toNat = op.toNat / 16 := by
  have := op.isLt
  simp [opUnit, BitVec.extractLsb'_toNat, Nat.shiftRight_eq_div_pow]
  omega

/-- The function field as a number (R71). -/
theorem opFunction_toNat (op : Byte) : (opFunction op).toNat = op.toNat % 16 := by
  simp [opFunction, BitVec.extractLsb'_toNat]

/-- The decoder with unit and function as numbers (R75). -/
theorem decode_by_numbers (p : Ports) : decode p = decodeFields (p.op.toNat / 16) (p.op.toNat % 16) p := by
  rw [decode, opUnit_toNat, opFunction_toNat]

/-- A reserved code is rejected by its name (R76). -/
theorem decode_reserved {p : Ports} (h : IsReserved p.op) : decode p = .error (.reservedCode p.op) := by
  rw [decode_by_numbers]
  unfold decodeFields
  split <;> first | rfl | (simp_all [IsReserved])

/-- The decoder rejects only reserved codes, and names the code (R75, R76). -/
theorem decode_error {p : Ports} {e : DecodeReject} (h : decode p = .error e) :
    e = .reservedCode p.op ∧ IsReserved p.op := by
  rw [decode_by_numbers] at h
  unfold decodeFields at h
  have := p.op.isLt
  split at h <;> first | cases h
  refine ⟨rfl, ?_⟩
  simp only [IsReserved]
  rename_i h0 h1 h2 h3 h4 h5 h6 h7 g0 g1 g2 g3 g4 g5
  by_cases hu : p.op.toNat / 16 = 0
  · by_contra hf
    have : p.op.toNat % 16 < 8 := by omega
    have : p.op.toNat % 16 = 0 ∨ p.op.toNat % 16 = 1 ∨ p.op.toNat % 16 = 2 ∨ p.op.toNat % 16 = 3 ∨
      p.op.toNat % 16 = 4 ∨ p.op.toNat % 16 = 5 ∨ p.op.toNat % 16 = 6 ∨ p.op.toNat % 16 = 7 := by omega
    simp_all
  · by_cases hv : p.op.toNat / 16 = 1
    · by_contra hf
      have : p.op.toNat % 16 < 6 := by omega
      have : p.op.toNat % 16 = 0 ∨ p.op.toNat % 16 = 1 ∨ p.op.toNat % 16 = 2 ∨ p.op.toNat % 16 = 3 ∨
        p.op.toNat % 16 = 4 ∨ p.op.toNat % 16 = 5 := by omega
      simp_all
    · omega

/-- What decodes to an operation has its code, and gives it the values of its ports (R72, R73). -/
theorem decode_ok_cases {p : Ports} {i : Instr} (h : decode p = .ok i) :
    (p.op = 0x00 ∧ i = .nop) ∨
    (p.op = 0x01 ∧ i = .press p.t) ∨
    (p.op = 0x02 ∧ i = .release p.t) ∨
    (p.op = 0x03 ∧ i = .poll p.t) ∨
    (p.op = 0x04 ∧ i = .enable) ∨
    (p.op = 0x05 ∧ i = .disable) ∨
    (p.op = 0x06 ∧ i = .setlt p.val) ∨
    (p.op = 0x07 ∧ i = .setit p.val) ∨
    (p.op = 0x10 ∧ i = .encode p.cmd p.ma p.arg) ∨
    (p.op = 0x11 ∧ i = .decode p.ibuf p.ilen) ∨
    (p.op = 0x12 ∧ i = .cmdkind p.ibuf p.ilen) ∨
    (p.op = 0x13 ∧ i = .matchId p.id p.ma) ∨
    (p.op = 0x14 ∧ i = .clrbits p.ma p.mb) ∨
    (p.op = 0x15 ∧ i = .selfunmask p.id p.ma) := by
  have key : ∀ v : Nat, p.op.toNat = v → p.op = BitVec.ofNat 8 v := by
    intro v hv; apply BitVec.eq_of_toNat_eq; rw [← hv]; simp
  rw [decode_by_numbers] at h
  unfold decodeFields at h
  split at h <;> cases h
  all_goals
    rename_i hu hf
    first
    | have := key 0 (by omega); simp_all
    | have := key 1 (by omega); simp_all
    | have := key 2 (by omega); simp_all
    | have := key 3 (by omega); simp_all
    | have := key 4 (by omega); simp_all
    | have := key 5 (by omega); simp_all
    | have := key 6 (by omega); simp_all
    | have := key 7 (by omega); simp_all
    | have := key 16 (by omega); simp_all
    | have := key 17 (by omega); simp_all
    | have := key 18 (by omega); simp_all
    | have := key 19 (by omega); simp_all
    | have := key 20 (by omega); simp_all
    | have := key 21 (by omega); simp_all

end Sys2Proof.Laws
end

