-- ==== Sys2Proof/Laws/Exec.lean ====
section
/-! SUPPORT. Everything an operation can do, said once: what it leaves in the classifier, in the codec's registers and on the
outputs, as functions of the operation and of the part it works on. -/

namespace Sys2Proof.Laws

open Sys2Proof.Machine

/-- What an operation leaves in the classifier. -/
def clsAfter (i : Instr) (c : Classifier 32) : Classifier 32 :=
  match i with
  | .press t => c.press t
  | .release t => (c.release t).1
  | .poll t => (c.poll t).1
  | .enable => c.enable
  | .disable => c.disable
  | .setlt v => c.setLt v
  | .setit v => c.setIt v
  | .nop | .encode _ _ _ | .decode _ _ | .cmdkind _ _ | .matchId _ _ | .clrbits _ _ | .selfunmask _ _ => c

/-- What an operation leaves in the codec's registers. -/
def codecAfter (i : Instr) (r : CodecRegs) : CodecRegs :=
  match i with
  | .encode cmd m a =>
    match commandName cmd with
    | some name =>
      { r with obuf := encodePayload name m a, olen := BitVec.ofNat 8 (encodePayload name m a).length }
    | none => { r with obuf := [], olen := 0 }
  | .decode b n =>
    match decodeBody (ibufBytes b n.toNat) with
    | some (m, a) => { r with rValid := true, rMask := m, rArg := a }
    | none => { r with rValid := false, rMask := 0, rArg := 0 }
  | .cmdkind b n => { r with rCmd := cmdKind (ibufBytes b n.toNat) }
  | .matchId id m => { r with rBool := maskHas id m }
  | .clrbits a b => { r with rMask := clearBits a b }
  | .selfunmask id m => { r with rMask := selfUnmask id m }
  | .nop | .press _ | .release _ | .poll _ | .enable | .disable | .setlt _ | .setit _ => r

/-- The outputs that show a transition's event. -/
def outOfEvent : TapEvent → Outputs
  | .none => ⟨.none, 0, false⟩
  | .short c => ⟨.short, c, false⟩
  | .long => ⟨.long, 0, false⟩

/-- What an operation leaves on the outputs. -/
def outAfter (i : Instr) (c : Classifier 32) : Outputs :=
  match i with
  | .release t => outOfEvent (c.release t).2
  | .poll t => outOfEvent (c.poll t).2
  | .encode cmd _ _ => ⟨.none, 0, (commandName cmd).isNone⟩
  | .nop | .press _ | .enable | .disable | .setlt _ | .setit _ | .decode _ _ | .cmdkind _ _ | .matchId _ _
  | .clrbits _ _ | .selfunmask _ _ => ⟨.none, 0, false⟩

/-- The state an operation leaves. -/
def after (i : Instr) (s : State) : State :=
  { cls := clsAfter i s.cls, codec := codecAfter i s.codec, out := outAfter i s.cls, feed := s.feed }

@[simp] theorem after_cls (i : Instr) (s : State) : (after i s).cls = clsAfter i s.cls := rfl
@[simp] theorem after_codec (i : Instr) (s : State) : (after i s).codec = codecAfter i s.codec := rfl
@[simp] theorem after_out (i : Instr) (s : State) : (after i s).out = outAfter i s.cls := rfl
@[simp] theorem after_feed (i : Instr) (s : State) : (after i s).feed = s.feed := rfl

theorem transition_after (r : Classifier 32 × TapEvent) (s : State) :
    putTransition r (beginOp s) = { s with cls := r.1, out := outOfEvent r.2 } := by
  obtain ⟨c, ev⟩ := r
  cases ev <;> rfl

/-- Every operation leaves exactly `after`. -/
theorem exec_after (i : Instr) (s : State) : exec i s = .next (after i s) := by
  cases i with
  | release t => exact congrArg Host.Outcome.next (transition_after _ s)
  | poll t => exact congrArg Host.Outcome.next (transition_after _ s)
  | encode cmd m a =>
    simp only [exec, execEncode, after, clsAfter, codecAfter, outAfter]
    cases commandName cmd <;> rfl
  | decode b n =>
    simp only [exec, execDecode, after, clsAfter, codecAfter, outAfter]
    rcases decodeBody (ibufBytes b n.toNat) with _ | ⟨m, a⟩ <;> rfl
  | _ => rfl

/-- What an operation that answers a next state has left. -/
theorem exec_inv {i : Instr} {s t : State} (h : exec i s = .next t) : t = after i s := by
  rw [exec_after] at h
  exact (Host.Outcome.next.inj h).symm

/-- The event that the outputs of an operation show. -/
theorem event_outOfEvent (s : State) (ev : TapEvent) (h : s.out = outOfEvent ev) : s.event = ev := by
  cases ev <;> simp [State.event, h, outOfEvent]

@[simp] theorem performAll_nil (s : State) : performAll [] s = .next s := rfl

/-- Operations in sequence, one at a time. -/
theorem performAll_cons (i : Instr) (is : List Instr) (s : State) :
    performAll (i :: is) s = performAll is (after i s) := by
  simp [performAll, exec_after]

/-- The events sampled, one operation at a time. -/
theorem sampledEvents_cons (i : Instr) (is : List Instr) (s : State) :
    sampledEvents (i :: is) s = (after i s).event.sample ++ sampledEvents is (after i s) := by
  simp [sampledEvents, exec_after]

/-- The state that operations in sequence leave. -/
def afterAll (is : List Instr) (s : State) : State := is.foldl (fun s i => after i s) s

theorem performAll_afterAll (is : List Instr) (s : State) : performAll is s = .next (afterAll is s) := by
  induction is generalizing s with
  | nil => rfl
  | cons i is ih => rw [performAll_cons, ih]; rfl

theorem afterAll_append (is js : List Instr) (s : State) : afterAll (is ++ js) s = afterAll js (afterAll is s) := by
  simp [afterAll]

theorem sampledEvents_append (is js : List Instr) (s : State) :
    sampledEvents (is ++ js) s = sampledEvents is s ++ sampledEvents js (afterAll is s) := by
  induction is generalizing s with
  | nil => rfl
  | cons i is ih => rw [List.cons_append, sampledEvents_cons, sampledEvents_cons, ih, List.append_assoc]; rfl

end Sys2Proof.Laws
end

