-- ==== Sys2Proof/Laws/PerInstr.lean ====
section
/-! SUPPORT. Facts about operations as syntax, one lemma for each constructor. Family EncodeWf: the presentation of a well-formed
operation is well-formed. -/

namespace Sys2Proof.Laws.EncodeWf

/-- The presentation of a well-formed operation is one the interface admits (R11, R35). -/
def Statement (i : Instr) : Prop := i.wf = true → (encode i).wf = true

theorem nop : Statement .nop := fun _ => rfl
theorem press (t : Word) : Statement (.press t) := fun _ => rfl
theorem release (t : Word) : Statement (.release t) := fun _ => rfl
theorem poll (t : Word) : Statement (.poll t) := fun _ => rfl
theorem enable : Statement .enable := fun _ => rfl
theorem disable : Statement .disable := fun _ => rfl
theorem setlt (v : Word) : Statement (.setlt v) := fun _ => rfl
theorem setit (v : Word) : Statement (.setit v) := fun _ => rfl
theorem encode (cmd : BitVec 2) (m : Mask) (a : BitVec 16) : Statement (.encode cmd m a) := fun _ => rfl
theorem decode (b : List Byte) (n : Byte) : Statement (.decode b n) := id
theorem cmdkind (b : List Byte) (n : Byte) : Statement (.cmdkind b n) := id
theorem matchId (id : BitVec 7) (m : Mask) : Statement (.matchId id m) := fun _ => rfl
theorem clrbits (a b : Mask) : Statement (.clrbits a b) := fun _ => rfl
theorem selfunmask (id : BitVec 7) (m : Mask) : Statement (.selfunmask id m) := fun _ => rfl

end Sys2Proof.Laws.EncodeWf
end

