-- ==== Sys2Proof/Laws/Step.lean ====
section
/-! SUPPORT. Everything a step can do, said once, and what a step of one instance leaves in a system. -/

namespace Sys2Proof.Laws

open Sys2Proof.Machine

/-- A step waits, resets, performs a decoded operation, or performs a reserved code. -/
theorem step_cases {s t : State} (h : step s = .next t) :
    (s.feed = [] ∧ t = s) ∨
    (∃ rest, s.feed = .reset :: rest ∧ t = { State.reset with feed := rest }) ∨
    (∃ p rest i, s.feed = .op p :: rest ∧ decode p = .ok i ∧ t = after i { s with feed := rest }) ∨
    (∃ p rest e, s.feed = .op p :: rest ∧ decode p = .error e ∧
      t = { s with out := ⟨.none, 0, true⟩, feed := rest }) := by
  unfold step at h
  split at h
  · rename_i hf
    exact .inl ⟨hf, (Host.Outcome.next.inj h).symm⟩
  · rename_i p rest hf
    unfold performPorts at h
    split at h
    · rename_i i hd
      exact .inr (.inr (.inl ⟨p, rest, i, hf, hd, exec_inv h⟩))
    · rename_i e hd
      exact .inr (.inr (.inr ⟨p, rest, e, hf, hd, (Host.Outcome.next.inj h).symm⟩))
  · rename_i rest hf
    exact .inr (.inl ⟨rest, hf, (Host.Outcome.next.inj h).symm⟩)

/-- A step of an instance changes that instance alone. -/
theorem systemStep_set {k : Nat} {sys sys' : System} (h : systemStep k sys = .next sys') :
    sys' = sys ∨ ∃ s', sys' = sys.set k s' := by
  unfold systemStep at h
  split at h
  · exact .inl (Host.Outcome.next.inj h).symm
  · split at h
    · exact .inr ⟨_, (Host.Outcome.next.inj h).symm⟩
    all_goals cases h

end Sys2Proof.Laws
end

