-- ==== Sys2Proof/Laws/Wire.lean ====
section
/-! SUPPORT. The wire format: lengths, the digits' inverses, and the bytes an operation of format GB reads. -/

namespace Sys2Proof.Laws

open Sys2Proof.Machine

@[simp] theorem ibufBytes_length (b : List Byte) (n : Nat) : (ibufBytes b n).length = n := by
  simp [ibufBytes]

/-- Where ILEN counts only bytes of IBUF, exactly those bytes are read (R35). -/
theorem ibufBytes_eq_take {b : List Byte} {n : Nat} (h : n ≤ b.length) : ibufBytes b n = b.take n := by
  apply List.ext_getElem
  · simp [h]
  · intro k h1 h2
    have hk : k < b.length := by simp at h1; omega
    simp [ibufBytes, ibufByte, List.getElem?_eq_getElem hk]

@[simp] theorem hex16_length (m : Mask) : (hex16 m).length = 16 := by simp [hex16]

/-- `hexval` inverts `HEXCHAR` (R172). -/
theorem hexval_hexChar (n : BitVec 4) : hexval (hexChar n) = n := by
  revert n; decide

/-- A decimal digit's character is read back as the digit (R162, R166). -/
theorem isDigit_digitChar {d : Nat} (h : d < 10) : isDigit (digitChar d) = true := by
  simp only [isDigit, digitChar, BitVec.toNat_ofNat, Bool.and_eq_true, decide_eq_true_eq]
  omega

theorem digitChar_toNat {d : Nat} (h : d < 10) : (digitChar d).toNat = 0x30 + d := by
  simp only [digitChar, BitVec.toNat_ofNat]
  omega

/-- The parser reads a list of digits as their decimal value modulo `2^16` (R166). -/
theorem parseCount_digits (a : BitVec 16) (cs : List Byte) (h : ∀ c ∈ cs, isDigit c = true) :
    (parseCount a cs).toNat = cs.foldl (fun v c => v * 10 + (c.toNat - 0x30)) a.toNat % 2 ^ 16 := by
  have mod_foldl : ∀ (cs : List Byte) (u v : Nat), u % 2 ^ 16 = v % 2 ^ 16 →
      cs.foldl (fun v c => v * 10 + (c.toNat - 0x30)) u % 2 ^ 16 =
        cs.foldl (fun v c => v * 10 + (c.toNat - 0x30)) v % 2 ^ 16 := by
    intro cs
    induction cs with
    | nil => exact fun _ _ e => e
    | cons c cs ih => intro u v e; exact ih _ _ (by dsimp only; omega)
  induction cs generalizing a with
  | nil => exact (Nat.mod_eq_of_lt a.isLt).symm
  | cons c cs ih =>
    simp only [parseCount, h c (List.mem_cons_self ..), if_true, List.foldl_cons]
    rw [ih _ fun d hd => h d (List.mem_cons_of_mem _ hd)]
    exact mod_foldl _ _ _ (by simp)

/-- The first byte that is no digit makes the count 0 (R166). -/
theorem parseCount_garbage (a : BitVec 16) (cs : List Byte) (h : ∃ c ∈ cs, isDigit c = false) : parseCount a cs = 0 := by
  induction cs generalizing a with
  | nil => simp at h
  | cons c cs ih =>
    simp only [parseCount]
    split
    · rename_i hc
      obtain ⟨d, hd, hn⟩ := h
      rcases List.mem_cons.mp hd with rfl | hd
      · simp [hc] at hn
      · exact ih _ ⟨d, hd, hn⟩
    · rfl

/-- The digits that the argument field holds are digits. -/
theorem decDigits_isDigit (fuel a : Nat) : ∀ c ∈ decDigits fuel a, isDigit c = true := by
  induction fuel generalizing a with
  | zero => simp [decDigits]
  | succ f ih =>
    simp only [decDigits]
    split
    · simp
    · intro c hc
      rcases List.mem_append.mp hc with hc | hc
      · exact ih _ c hc
      · rw [List.mem_singleton.mp hc]; exact isDigit_digitChar (Nat.mod_lt _ (by decide))

/-- The digits that the argument field holds have the argument as their value. -/
theorem decDigits_value (fuel a : Nat) (h : a < 10 ^ fuel) :
    (decDigits fuel a).foldl (fun v c => v * 10 + (c.toNat - 0x30)) 0 = a := by
  induction fuel generalizing a with
  | zero => simp at h; simp [decDigits, h]
  | succ f ih =>
    simp only [decDigits]
    split
    · rename_i h0; simp [h0]
    · rw [List.foldl_append, ih (a / 10) (by rw [Nat.pow_succ] at h; omega)]
      simp only [List.foldl_cons, List.foldl_nil, digitChar_toNat (Nat.mod_lt a (show 0 < 10 by decide))]
      omega

/-- With fuel enough the digits do not depend on it (R162). -/
theorem decDigits_fuel (f g a : Nat) (hf : a < 10 ^ f) (hg : a < 10 ^ g) : decDigits f a = decDigits g a := by
  induction f generalizing g a with
  | zero => simp at hf; subst hf; cases g <;> simp [decDigits]
  | succ f ih =>
    cases g with
    | zero => simp at hg; subst hg; simp [decDigits]
    | succ g =>
      simp only [decDigits]
      rw [Nat.pow_succ] at hf hg
      rw [ih g (a / 10) (by omega) (by omega)]

/-- The argument field is never empty. -/
theorem decArg_ne_nil (a : BitVec 16) : decArg a ≠ [] := by
  unfold decArg
  split
  · simp
  · rename_i h
    have : a.toNat ≠ 0 := fun e => h (BitVec.eq_of_toNat_eq e)
    simp [decDigits, this]

theorem decArg_isDigit (a : BitVec 16) : ∀ c ∈ decArg a, isDigit c = true := by
  unfold decArg
  split
  · simp [isDigit, charZero]
  · exact decDigits_isDigit 5 a.toNat

/-- The argument field reads back as the argument (R172). -/
theorem parseCount_decArg (a : BitVec 16) : parseCount 0 (decArg a) = a := by
  apply BitVec.eq_of_toNat_eq
  rw [parseCount_digits 0 _ (decArg_isDigit a)]
  unfold decArg
  split
  · rename_i h; subst h; rfl
  · have := a.isLt
    rw [show (0 : BitVec 16).toNat = 0 from rfl, decDigits_value 5 a.toNat (by omega)]
    omega

/-- One more digit shifts the mask by a nibble (R164). -/
theorem parseMask_concat_getLsbD (cs : List Byte) (c : Byte) (j : Nat) (hj : j < 64) :
    (parseMask (cs ++ [c])).getLsbD j =
      if j < 4 then (hexval c).getLsbD j else (parseMask cs).getLsbD (j - 4) := by
  simp only [parseMask, List.foldl_append, List.foldl_cons, List.foldl_nil]
  by_cases h : j < 4
  · simp [h, hj]
  · have : (hexval c).getLsbD j = false := BitVec.getLsbD_of_ge _ _ (by omega)
    have h64 : j - 4 < 64 := by omega
    simp [h, hj, this, BitVec.getLsbD_eq_getElem h64]

/-- Bit `j` of digit `k`, counted from the first digit, stands in the nibble that counts from the last (R52, R164). -/
theorem parseMask_getLsbD (cs : List Byte) (k j : Nat) (hk : k < cs.length) (hj : j < 4)
    (hb : 4 * (cs.length - 1 - k) + j < 64) :
    (parseMask cs).getLsbD (4 * (cs.length - 1 - k) + j) = (hexval cs[k]).getLsbD j := by
  induction cs using List.reverseRecOn generalizing k with
  | nil => simp at hk
  | append_singleton cs c ih =>
    rw [parseMask_concat_getLsbD _ _ _ hb]
    simp only [List.length_append, List.length_cons, List.length_nil] at hk hb ⊢
    by_cases h : k = cs.length
    · subst h
      rw [if_pos (by omega)]
      simp
    · have hk' : k < cs.length := by omega
      rw [if_neg (by omega), List.getElem_append_left hk', ← ih k hk' (by omega)]
      congr 1
      omega

/-- Nibble `k` of the mask that sixteen digits give is the nibble of digit `k` (R164). -/
theorem parseMask_nibble (cs : List Byte) (k : Nat) (h : cs.length = 16) (hk : k < 16) :
    (parseMask cs).extractLsb' (60 - 4 * k) 4 = hexval (cs[k]'(by omega)) := by
  apply BitVec.eq_of_getLsbD_eq
  intro j hj
  have := parseMask_getLsbD cs k j (by omega) hj (by omega)
  rw [BitVec.getLsbD_extractLsb', ← this, h]
  simp only [hj, decide_true, Bool.true_and]
  congr 1
  omega

/-- The mask digits read back as the mask (R172). -/
theorem parseMask_hex16 (m : Mask) : parseMask (hex16 m) = m := by
  apply BitVec.eq_of_getLsbD_eq
  intro i hi
  have := parseMask_getLsbD (hex16 m) (15 - i / 4) (i % 4) (by simp; omega) (by omega) (by simp; omega)
  rw [show 4 * ((hex16 m).length - 1 - (15 - i / 4)) + i % 4 = i by simp; omega] at this
  rw [this]
  have h1 : i % 4 < 4 := by omega
  simp only [hex16, List.getElem_map, List.getElem_range, hexval_hexChar, maskNibble, BitVec.getLsbD_extractLsb', h1,
    decide_true, Bool.true_and]
  congr 1
  omega

/-- The valid bytes of an encoded body decode to its mask and its argument (R172). -/
theorem decodeBody_encodeBody (m : Mask) (a : BitVec 16) : decodeBody (encodeBody m a) = some (m, a) := by
  have hne := List.length_pos_iff.mpr (decArg_ne_nil a)
  have hm : ((encodeBody m a).drop 2).take 16 = hex16 m := by
    simp [encodeBody]
  have ha : (encodeBody m a).drop 19 = decArg a := by
    have : encodeBody m a = ([charZero, charX] ++ hex16 m ++ [charSlash]) ++ decArg a := by simp [encodeBody]
    rw [this, List.drop_append_of_le_length (by simp)]
    simp
  have hl : 19 < (encodeBody m a).length := by simp [encodeBody]; omega
  rw [decodeBody, if_pos hl, hm, ha, parseMask_hex16, parseCount_decArg]

/-- The number of digits of the argument field (R163). -/
theorem decArg_length (a : BitVec 16) :
    (decArg a).length =
      if a.toNat ≤ 9 then 1 else if a.toNat ≤ 99 then 2 else if a.toNat ≤ 999 then 3
        else if a.toNat ≤ 9999 then 4 else 5 := by
  have hlt := a.isLt
  unfold decArg
  split
  · rename_i h; subst h; rfl
  · rename_i h
    have h0 : a.toNat ≠ 0 := fun e => h (BitVec.eq_of_toNat_eq e)
    simp only [decDigits]
    repeat' split
    all_goals first | omega | simp

/-- Every name is three bytes (R79). -/
theorem commandName_length {cmd : BitVec 2} {name : List Byte} (h : commandName cmd = some name) : name.length = 3 := by
  revert h
  unfold commandName
  split <;> intro h <;> first | (cases h; rfl) | cases h

/-- Only code 3 has no name (R79). -/
theorem commandName_eq_none (cmd : BitVec 2) : commandName cmd = none ↔ cmd = 3 := by
  revert cmd; decide

/-- The length of a payload (R163). -/
theorem encodePayload_length {cmd : BitVec 2} {name : List Byte} (h : commandName cmd = some name) (m : Mask)
    (a : BitVec 16) : (encodePayload name m a).length = 23 + (decArg a).length := by
  simp [encodePayload, encodeBody, commandName_length h]
  omega

/-- CMDKIND of an encoded payload is its command (R172). -/
theorem cmdKind_encodePayload {cmd : BitVec 2} {name : List Byte} (h : commandName cmd = some name) (m : Mask)
    (a : BitVec 16) : cmdKind (encodePayload name m a) = cmd := by
  have : ∀ c : BitVec 2, c = 0 ∨ c = 1 ∨ c = 2 ∨ c = 3 := by decide
  rcases this cmd with rfl | rfl | rfl | rfl <;> simp [commandName] at h <;> subst h <;>
    simp [encodePayload, cmdKind, commandName]

end Sys2Proof.Laws
end

