-- ==== Sys2Proof/Tests/Slice0.lean ====
section
/-! SUPPORT. Small tests of the model against the spec's own vectors (95_test_vectors.md) and worked examples, and for every
statement with hypotheses a concrete state and operands that meet them. Every expected value is the spec's. -/

namespace Sys2Proof.Tests

open Sys2Proof.Machine

/-- A classifier with `lt = 500` and `it = 300`, as the vectors have it. -/
def tap (st : ClassState) (cnt : BitVec 16) (start now : Word) : Classifier 32 :=
  { st := st, cnt := cnt, lt := 500, it := 300, tm := ⟨start, now⟩ }

/-- A block with that classifier, all else at reset. -/
def block (st : ClassState) (cnt : BitVec 16) (start now : Word) : State :=
  { State.reset with cls := tap st cnt start now }

/-- A block at reset but for what is presented to it. -/
def fed (feed : List Stimulus) : State := { State.reset with feed := feed }

/-- What a meaning left in the classifier and on the outputs. -/
def tapResult (r : Result) : Option (Classifier 32 × Outputs) :=
  match r with
  | .next s => some (s.cls, s.out)
  | .fault _ => none
  | .refused _ => none

/-- What a meaning left in the codec's registers. -/
def codecResult (r : Result) : Option CodecRegs :=
  match r with
  | .next s => some s.codec
  | .fault _ => none
  | .refused _ => none

/-- No event and no error. -/
def quiet : Outputs := ⟨.none, 0, false⟩

-- WellFormed: an ill-formed operation for each check

/-- ILEN counts a byte that IBUF does not hold (R35). -/
theorem test_wf_refuses_ilen_beyond_ibuf : (Instr.decode [0x30] 2).wf = false := by decide
theorem test_wf_refuses_ilen_beyond_ibuf_cmdkind : (Instr.cmdkind [] 1).wf = false := by decide
/-- IBUF holds 255 bytes at most (R11). -/
theorem test_wf_refuses_256_bytes : (Instr.cmdkind (List.replicate 256 0x30) 4).wf = false := by
  rw [Instr.wf, gbWellFormed, ibufFits, ilenValid, List.length_replicate]; decide
theorem test_wf_accepts_255_bytes : (Instr.decode (List.replicate 255 0x30) 255).wf = true := by
  rw [Instr.wf, gbWellFormed, ibufFits, ilenValid, List.length_replicate]; decide
theorem test_ports_wf_refuses_ilen : Ports.wf { op := 0x11, ibuf := [], ilen := 1 } = false := by decide

-- Decoding: the codes of R72 written bit by bit, with the operands on their ports

theorem test_decode_nop : decode { op := 0b00000000#8 } = .ok .nop := by decide
theorem test_decode_press : decode { op := 0b00000001#8, t := 1000 } = .ok (.press 1000) := by decide
theorem test_decode_release : decode { op := 0b00000010#8, t := 1100 } = .ok (.release 1100) := by decide
theorem test_decode_poll : decode { op := 0b00000011#8, t := 1200 } = .ok (.poll 1200) := by decide
theorem test_decode_enable : decode { op := 0b00000100#8 } = .ok .enable := by decide
theorem test_decode_disable : decode { op := 0b00000101#8 } = .ok .disable := by decide
theorem test_decode_setlt : decode { op := 0b00000110#8, val := 500 } = .ok (.setlt 500) := by decide
theorem test_decode_setit : decode { op := 0b00000111#8, val := 300 } = .ok (.setit 300) := by decide
theorem test_decode_encode : decode { op := 0b00010000#8, cmd := 2, ma := 4, arg := 1 } = .ok (.encode 2 4 1) := by decide
theorem test_decode_decode : decode { op := 0b00010001#8, ibuf := [0x30], ilen := 1 } = .ok (.decode [0x30] 1) := by decide
theorem test_decode_cmdkind : decode { op := 0b00010010#8, ibuf := [0x6F, 0x6E], ilen := 2 } = .ok (.cmdkind [0x6F, 0x6E] 2) := by
  decide
theorem test_decode_match : decode { op := 0b00010011#8, id := 3, ma := 4 } = .ok (.matchId 3 4) := by decide
theorem test_decode_clrbits : decode { op := 0b00010100#8, ma := 0xFF, mb := 0x0F } = .ok (.clrbits 0xFF 0x0F) := by decide
theorem test_decode_selfunmask : decode { op := 0b00010101#8, id := 3, ma := 0x0F } = .ok (.selfunmask 3 0x0F) := by decide
/-- RS-1 to RS-4: the reserved codes at the edges of R76. -/
theorem test_decode_reserved :
    [0x08, 0x0F, 0x16, 0x1F, 0x20, 0xFF].all (fun n => decodeTableWord 8 n = none) = true := by decide

-- The timer (TM-1, TM-4, TM-9 with W = 8, TM-10; the examples of R101 and R103)

theorem test_elapsed_plain : Timer.elapsed 250 (⟨100, 100⟩ : Timer 32) = (150, ⟨100, 250⟩) := by decide
theorem test_elapsed_wrap : Timer.elapsed 0x10 (⟨0xFFFFFF00, 0xFFFFFF00⟩ : Timer 32) = (272, ⟨0, 0x110⟩) := by decide
theorem test_elapsed_wrap_8 : Timer.elapsed 4 (⟨250, 250⟩ : Timer 8) = (10, ⟨0, 10⟩) := by decide
theorem test_elapsed_backwards :
    Timer.elapsed 999 (⟨1000, 1200⟩ : Timer 32) = (0xFFFFFFFF, ⟨0, 0xFFFFFFFF⟩) := by decide
theorem test_mark_all : Timer.markAll 100 (⟨5, 9⟩ : Timer 32) = ⟨100, 100⟩ := by decide
theorem test_mark_last : Timer.markLast (⟨0, 0x110⟩ : Timer 32) = ⟨0x110, 0x110⟩ := by decide

-- The classifier

/-- CL-29. -/
theorem test_nop : tapResult (exec .nop (block .pressed 0 1000 1000)) = some (tap .pressed 0 1000 1000, quiet) := by decide
/-- RS-5: NOP clears `err`. -/
theorem test_nop_clears_err :
    tapResult (exec .nop { State.reset with out := ⟨.none, 0, true⟩ }) = some (Classifier.reset 32, quiet) := by decide
/-- CL-1. -/
theorem test_press_idle :
    tapResult (exec (.press 1000) (block .idle 0 0 0)) = some (tap .pressed 0 1000 1000, quiet) := by decide
/-- CL-11: the ignored press refreshes the timer. -/
theorem test_press_ignored :
    tapResult (exec (.press 1400) (block .released 1 1100 1100)) = some (tap .released 1 1100 1400, quiet) := by decide
/-- CL-6: held exactly `lt` is long. -/
theorem test_release_long :
    tapResult (exec (.release 1500) (block .pressed 0 1000 1000)) =
      some (tap .idle 0 1000 1500, ⟨.long, 0, false⟩) := by decide
/-- CL-24: the count saturates. -/
theorem test_release_saturates :
    tapResult (exec (.release 1100) (block .pressed 65535 1000 1000)) = some (tap .released 65535 1100 1100, quiet) := by decide
/-- CL-13: the window closes at exactly `it`. -/
theorem test_poll_ends :
    tapResult (exec (.poll 1400) (block .released 1 1100 1100)) =
      some (tap .idle 0 1100 1400, ⟨.short, 1, false⟩) := by decide
/-- CL-26: a wrap seen inside the window. -/
theorem test_poll_wrap :
    tapResult (exec (.poll 0x10) (block .released 1 0xFFFFFF00 0xFFFFFF00)) = some (tap .released 1 0 272, quiet) := by decide
/-- CL-19. -/
theorem test_enable : tapResult (exec .enable (block .disabled 0 0 0)) = some (tap .idle 0 0 0, quiet) := by decide
/-- CL-20. -/
theorem test_enable_keeps_sequence :
    tapResult (exec .enable (block .released 2 1100 1100)) = some (tap .released 2 1100 1100, quiet) := by decide
/-- CL-21. -/
theorem test_disable :
    tapResult (exec .disable (block .released 2 1100 1100)) = some (tap .disabled 0 1100 1100, quiet) := by decide
/-- CL-22. -/
theorem test_setlt :
    tapResult (exec (.setlt 100) (block .pressed 0 1000 1000)) =
      some ({ tap .pressed 0 1000 1000 with lt := 100 }, quiet) := by decide
/-- CL-30. -/
theorem test_setit :
    tapResult (exec (.setit 50) (block .released 1 1100 1100)) =
      some ({ tap .released 1 1100 1100 with it := 50 }, quiet) := by decide

-- The codec

/-- EN-3: the first digit is the top nibble, digits lowercase. -/
theorem test_encode :
    codecResult (exec (.encode 1 0x0123456789ABCDEF 0) State.reset) =
      some { CodecRegs.reset with
        obuf := [0x66, 0x6C, 0x74, 0x2F, 0x30, 0x78, 0x30, 0x31, 0x32, 0x33, 0x34, 0x35, 0x36, 0x37, 0x38, 0x39,
          0x61, 0x62, 0x63, 0x64, 0x65, 0x66, 0x2F, 0x30],
        olen := 24 } := by decide
/-- EN-4. -/
theorem test_encode_no_name :
    tapResult (exec (.encode 3 5 5) State.reset) = some (Classifier.reset 32, ⟨.none, 0, true⟩) := by decide
/-- DE-10: `0x0000000000000004/70000`, the count modulo `2^16`. -/
theorem test_decode_body :
    codecResult (exec (.decode ([0x30, 0x78] ++ List.replicate 15 0x30 ++ [0x34, 0x2F, 0x37, 0x30, 0x30, 0x30, 0x30]) 24)
        State.reset) =
      some { CodecRegs.reset with rValid := true, rMask := 4, rArg := 4464 } := by decide
/-- DE-8 and DE-12 together: `zz0000000000000004#12x`, unchecked bytes and a malformed count. -/
theorem test_decode_malformed :
    codecResult (exec (.decode ([0x7A, 0x7A] ++ List.replicate 15 0x30 ++ [0x34, 0x23, 0x31, 0x32, 0x78]) 22) State.reset) =
      some { CodecRegs.reset with rValid := true, rMask := 4 } := by decide
/-- CK-3. -/
theorem test_cmdkind :
    codecResult (exec (.cmdkind [0x66, 0x6C, 0x74, 0x2F] 4) State.reset) = some { CodecRegs.reset with rCmd := 1 } := by decide
/-- CK-7: byte 3 is not the separator. -/
theorem test_cmdkind_no_slash :
    codecResult (exec (.cmdkind [0x66, 0x73, 0x74, 0x78] 4) State.reset) = some { CodecRegs.reset with rCmd := 3 } := by decide
/-- MA-4. -/
theorem test_match_id_64_top_bit :
    codecResult (exec (.matchId 64 0x8000000000000000) State.reset) = some { CodecRegs.reset with rBool := true } := by decide
/-- MA-6. -/
theorem test_match_id_above_range :
    codecResult (exec (.matchId 65 0xFFFFFFFFFFFFFFFF) State.reset) = some CodecRegs.reset := by decide
/-- CB-2. -/
theorem test_clrbits :
    codecResult (exec (.clrbits 0x1B 0xE) State.reset) = some { CodecRegs.reset with rMask := 0x11 } := by decide
/-- SU-2. -/
theorem test_selfunmask :
    codecResult (exec (.selfunmask 3 0x1F) State.reset) = some { CodecRegs.reset with rMask := 0x1B } := by decide
/-- SU-5. -/
theorem test_selfunmask_64 :
    codecResult (exec (.selfunmask 64 0xFFFFFFFFFFFFFFFF) State.reset) =
      some { CodecRegs.reset with rMask := 0x7FFFFFFFFFFFFFFF } := by decide

-- The step

/-- RS-1. -/
theorem test_step_reserved :
    tapResult (step { block .idle 0 1000 1000 with feed := [.op { op := 0x08 }] }) =
      some (tap .idle 0 1000 1000, ⟨.none, 0, true⟩) := by decide
/-- RS-7: Disabled absorbs right after reset. -/
theorem test_step_press_after_reset :
    tapResult (step (State.reset.withFetchWord 8 0x01)) = some (Classifier.reset 32, quiet) := by decide
/-- The assembler refuses a value that does not fit its port (R6, R85). -/
theorem test_assemble_refuses_wide_id : assembleLine "MATCH 128, 0x4".toList = none := by decide
/-- A byte written `\xHH` (R85). -/
theorem test_assemble_byte : assembleLine "CMDKIND \"a\\x0A\"".toList = some [encode (.cmdkind [0x61, 0x0A] 2)] := by decide

-- Witnesses: concrete states and operands that meet the hypotheses of a statement, a part for each clause

theorem witness_StepRunsTheDecodedOperation :
    (fed [.op { op := 0x01, t := 5 }]).feed = .op { op := 0x01, t := 5 } :: [] ∧
      decode { op := 0x01, t := 5 } = .ok (.press 5) := by decide

theorem witness_ReservedCodesSetErrAndChangeNothingElse :
    (fed [.op { op := 0x08 }]).feed = .op { op := 0x08 } :: [] ∧
      IsReserved 0x08 ∧ IsReserved 0x0F ∧ IsReserved 0x16 ∧ IsReserved 0x1F ∧ IsReserved 0x20 ∧ IsReserved 0xFF := by decide

theorem witness_StepWaitsWhenNothingIsPresented : (block .pressed 1 2 3).feed = [] := by decide

theorem witness_ResetStimulusRestoresEveryRegister : (fed [.reset, .reset]).feed = .reset :: [.reset] := by decide

theorem witness_DecodingFollowsTheOpcodeMap :
    (∀ n : Fin 8, ¬ IsReserved (BitVec.ofNat 8 n)) ∧ (∀ n : Fin 6, ¬ IsReserved (BitVec.ofNat 8 (0x10 + n))) ∧
      IsReserved 0x08 ∧ IsReserved 0x16 ∧ IsReserved 0x20 := by decide

theorem witness_DecodeAndEncodeAgree : decode { op := 0x14, ma := 0xFF, mb := 0x0F, t := 7 } = .ok (.clrbits 0xFF 0x0F) := by
  decide

theorem witness_PortsOutsideTheFormatHaveNoEffect :
    SameReadPorts { op := 0x01, t := 5, ma := 1 } { op := 0x01, t := 5, ma := 2 } ∧
      ¬ SameReadPorts { op := 0x01, t := 5 } { op := 0x01, t := 6 } := by decide

theorem witness_BytesBeyondIlenAreNeverRead :
    (1 : Byte).toNat ≤ [0x30#8, 0x31].length ∧ (1 : Byte).toNat ≤ [0x30#8].length ∧
      [0x30#8, 0x31].take (1 : Byte).toNat = [0x30#8].take (1 : Byte).toNat := by decide

theorem witness_FeedRunsInOrder : (fed [.op (encode .enable), .reset]).feed = presentAll [.enable] ++ [.reset] := by decide

theorem witness_MarkAllMarkLastAndDelta : (⟨1000, 1250⟩ : Timer 32).start ≤ (⟨1000, 1250⟩ : Timer 32).now := by decide

theorem witness_TimerMarkNowCorrectsOneWrap :
    (0x10 : BitVec 32) < (⟨0xFFFFFF00, 0⟩ : Timer 32).start ∧ (⟨5, 0⟩ : Timer 32).start ≤ (5 : BitVec 32) := by decide

theorem witness_ElapsedIsExactUnderOneWrap : (0 : Nat) ≤ 2 ^ 0 - 1 ∧ 255 ≤ 2 ^ 8 - 1 := by decide

theorem witness_SecondReadAfterAWrapMeasuresFromZero : (0x10 : BitVec 32) < 0xFFFFFF00 := by decide

/-- The codes in the first clauses of NopOnlyClearsTheOutputs, DisableDiscardsTheSequence and ThresholdsAreWrittenInEveryState. -/
theorem witness_NopOnlyClearsTheOutputs : (encode .nop).op = 0x00 := by decide
theorem witness_DisableDiscardsTheSequence : (encode .disable).op = 0x05 := by decide
theorem witness_ThresholdsAreWrittenInEveryState : (encode (.setlt 1)).op = 0x06 ∧ (encode (.setit 1)).op = 0x07 := by decide

theorem witness_PressFollowsItsRule :
    (block .idle 0 0 0).cls.st = .idle ∧
    ((block .released 1 1100 1100).cls.st = .released ∧ ticksBetween (1100 : Word) 1399 < (300 : Word).toNat) ∧
    ((block .released 1 1100 1100).cls.st = .released ∧ (300 : Word).toNat ≤ ticksBetween (1100 : Word) 1400) ∧
    (block .pressed 0 0 0).cls.st = .pressed ∧ (block .disabled 0 0 0).cls.st = .disabled := by decide

theorem witness_ReleaseFollowsItsRule :
    ((block .pressed 1 1000 1000).cls.st = .pressed ∧ (block .pressed 1 1000 1000).cls.cnt ≠ 0) ∧
    ((block .pressed 0 1000 1000).cls.cnt = 0 ∧ ticksBetween (1000 : Word) 1499 < (500 : Word).toNat) ∧
    ({ block .pressed 0 1000 1000 with cls := { tap .pressed 0 1000 1000 with lt := 0 } } : State).cls.lt = 0 ∧
    ((block .pressed 0 1000 1000).cls.lt ≠ 0 ∧ (500 : Word).toNat ≤ ticksBetween (1000 : Word) 1500) ∧
    (block .idle 0 0 0).cls.st = .idle ∧ (block .released 1 0 0).cls.st = .released ∧
    (block .disabled 0 0 0).cls.st = .disabled := by decide

theorem witness_PollFollowsItsRule :
    ((block .released 1 1100 1100).cls.st = .released ∧ (300 : Word).toNat ≤ ticksBetween (1100 : Word) 1400) ∧
    ticksBetween (1100 : Word) 1399 < (300 : Word).toNat ∧
    (block .idle 0 0 0).cls.st = .idle ∧ (block .pressed 0 0 0).cls.st = .pressed ∧
    (block .disabled 0 0 0).cls.st = .disabled := by decide

theorem witness_EnableLeavesOnlyDisabled :
    (block .disabled 0 0 0).cls.st = .disabled ∧ (block .released 2 0 0).cls.st ≠ .disabled := by decide

theorem witness_EncodeWritesThePayload :
    (∃ name : List Byte, ((0 : BitVec 2) = 0 ∧ name = [0x66, 0x73, 0x74])) ∧
    (∃ name : List Byte, ((1 : BitVec 2) = 1 ∧ name = [0x66, 0x6C, 0x74])) ∧
    (∃ name : List Byte, ((2 : BitVec 2) = 2 ∧ name = [0x74, 0x6F, 0x66])) ∧ (3 : BitVec 2) = 3 :=
  ⟨⟨_, rfl, rfl⟩, ⟨_, rfl, rfl⟩, ⟨_, rfl, rfl⟩, rfl⟩

theorem witness_MaskDigitsAreMostSignificantFirst : (0 : Nat) < 16 ∧ 15 < 16 := by decide

theorem witness_ArgumentDigitsFollowTheirRule : (10 : BitVec 16) ≠ 0 ∧ (65535 : BitVec 16) ≠ 0 := by decide

theorem witness_EncodeLengthIs23PlusTheDigits : (0 : BitVec 2) ≠ 3 ∧ (2 : BitVec 2) ≠ 3 := by decide

theorem witness_DecodeOfAShortBodyIsInvalid :
    (0 : Byte).toNat ≤ 19 ∧ (19 : Byte).toNat ≤ 19 ∧ ∃ t, exec (.decode [] 0) State.reset = .next t :=
  ⟨by decide, by decide, _, rfl⟩

theorem witness_DecodeReadsTheMaskAndTheCount :
    (19 < (20 : Byte).toNat ∧ (20 : Byte).toNat ≤ (List.replicate 20 0x30#8).length) ∧
    (∀ c ∈ ((List.replicate 20 0x30#8).take 20).drop 19, 0x30 ≤ c.toNat ∧ c.toNat ≤ 0x39) ∧
    ∃ c ∈ ((List.replicate 19 0x30#8 ++ [0x3A]).take 20).drop 19, c.toNat < 0x30 ∨ 0x39 < c.toNat := by decide

theorem witness_HexDigitsReadInEitherCase :
    (0x30 ≤ (0x39#8).toNat ∧ (0x39#8).toNat ≤ 0x39) ∧ (0x61 ≤ (0x66#8).toNat ∧ (0x66#8).toNat ≤ 0x66) ∧
    (0x41 ≤ (0x46#8).toNat ∧ (0x46#8).toNat ≤ 0x46) ∧
    ¬ (0x30 ≤ (0x67#8).toNat ∧ (0x67#8).toNat ≤ 0x39) ∧ ¬ (0x61 ≤ (0x67#8).toNat ∧ (0x67#8).toNat ≤ 0x66) ∧
    ¬ (0x41 ≤ (0x67#8).toNat ∧ (0x67#8).toNat ≤ 0x46) := by decide

theorem witness_CmdkindRecognisesExactlyTheThreeNames :
    (4 : Byte).toNat ≤ [0x66#8, 0x73, 0x74, 0x2F].length ∧ (0 : Byte).toNat ≤ ([] : List Byte).length := by decide

theorem witness_MatchReadsTheIdentifiersBit :
    (1 ≤ (1 : BitVec 7).toNat ∧ (1 : BitVec 7).toNat ≤ 64) ∧ (1 ≤ (64 : BitVec 7).toNat ∧ (64 : BitVec 7).toNat ≤ 64) ∧
    (0 : BitVec 7).toNat = 0 ∧ 65 ≤ (65 : BitVec 7).toNat ∧ 65 ≤ (127 : BitVec 7).toNat := by decide

theorem witness_SelfunmaskClearsTheIdentifiersBit :
    (1 ≤ (64 : BitVec 7).toNat ∧ (64 : BitVec 7).toNat ≤ 64 ∧ 63 < 64) ∧ (0 : BitVec 7).toNat = 0 ∧
    65 ≤ (65 : BitVec 7).toNat := by decide

theorem witness_ClrbitsKeepsTheBitsTheOtherLacks : (0x14 : Byte) = ({ op := 0x14 } : Ports).op ∧ 0 < 64 ∧ 63 < 64 := by decide

theorem witness_NibblewiseClearIsTheWholeClear : 0 < 16 ∧ 15 < 16 := by decide

theorem witness_WireRoundTripGivesBackEveryCommand :
    (0 : BitVec 2) ≠ 3 ∧ (2 : BitVec 2) ≠ 3 ∧ ∃ t, exec (.encode 2 0xFFFFFFFFFFFFFFFF 65535) State.reset = .next t :=
  ⟨by decide, by decide, _, rfl⟩

theorem witness_ForwardedMaskAvoidsTheIncomingOne :
    (1 : BitVec 2) ≠ 3 ∧ ∃ t, forwardCommand 1 0x1B 0xE 2 State.reset = .next t := ⟨by decide, _, rfl⟩

theorem witness_ReceiverActsExactlyWhenAddressed :
    (2 : BitVec 2) ≠ 3 ∧ ∃ t, exec (.encode 2 4 1) State.reset = .next t := ⟨by decide, ⟨_, rfl⟩⟩

theorem witness_LongTapBoundaryIsExact :
    (block .idle 0 0 0).cls.st = .idle ∧ (block .idle 0 0 0).cls.cnt = 0 ∧ (block .idle 0 0 0).cls.lt ≠ 0 ∧
      1 ≤ (block .released 1 0 0).cls.cnt.toNat := by decide

theorem witness_TapsInsideASequenceAreNeverLong :
    (block .released 1 0 0).cls.st = .released ∧ (block .released 1 0 0).cls.cnt ≠ 0 ∧
      ∀ i ∈ [Instr.press 10, .release 9000], IsEdge i :=
  ⟨rfl, by decide, by
    intro i hi
    rcases List.mem_pair.mp hi with rfl | rfl
    · exact .inl ⟨_, rfl⟩
    · exact .inr ⟨_, rfl⟩⟩

theorem witness_NoLongTapWhileDetectionIsOff :
    State.reset.cls.lt = 0 ∧ (∀ i ∈ [Instr.enable, .press 0, .release 900000], ∀ v, i ≠ .setlt v) ∧
      ∃ s : State, s.cls.lt = 0 ∧ s.cls.st = .pressed :=
  ⟨rfl, by simp, { State.reset with cls := { tap .pressed 0 0 0 with lt := 0 } }, rfl, rfl⟩

theorem witness_EventsComeFromReleaseAndPollAndLeaveIdle :
    (∃ t, exec (.release 1500) (block .pressed 0 1000 1000) = .next t ∧ t.out.evtKind = .long) ∧
    ∃ t, exec (.poll 1400) (block .released 1 1100 1100) = .next t ∧ t.out.evtKind = .short :=
  ⟨⟨_, rfl, by decide⟩, ⟨_, rfl, by decide⟩⟩

theorem witness_TapSequenceEndsInOneShortTap :
    (block .idle 0 0 0).cls.st = .idle ∧ (block .idle 0 0 0).cls.cnt = 0 ∧
    ticksBetween (1000 : Word) 1100 < (block .idle 0 0 0).cls.lt.toNat ∧
    GapsWithin (block .idle 0 0 0).cls.it 1100 [(1250, 1350), (1600, 1700)] ∧
    (block .idle 0 0 0).cls.it.toNat ≤ ticksBetween (lastRelease 1100 [(1250, 1350), (1600, 1700)]) 2000 :=
  ⟨rfl, rfl, by decide, ⟨by decide, by decide, trivial⟩, by decide⟩

theorem witness_PressAfterTheWindowIsLost :
    ((block .released 1 1100 1100).cls.st = .released ∧ (300 : Word).toNat ≤ ticksBetween (1100 : Word) 1400 ∧
      (1100 : Word) ≤ 1400 ∧ ((1400 : Word) ≤ 1400 ∧ (5 : Word) < 1100)) ∧
    ((block .released 1 0xFFFFFF00 0xFFFFFF00).cls.st = .released ∧
      (300 : Word).toNat ≤ ticksBetween (0xFFFFFF00 : Word) 44 ∧ (44 : Word) < 0xFFFFFF00 ∧
      (300 : Word) ≤ 300 ∧ (299 : Word) < 300) := by decide

theorem witness_ZeroWindowMakesEveryTapOneEvent :
    ∃ s r : State, s.cls.it = 0 ∧ s.cls.st = .idle ∧ s.cls.cnt = 0 ∧ r.cls.it = 0 ∧ r.cls.st = .released :=
  ⟨{ State.reset with cls := { tap .idle 0 0 0 with it := 0 } },
    { State.reset with cls := { tap .released 1 0 0 with it := 0 } }, rfl, rfl, rfl, rfl, rfl⟩

theorem witness_WrapInsideTheWindowRestartsItFromZero :
    (block .released 1 0xFFFFFF00 0xFFFFFF00).cls.st = .released ∧ (0x10 : Word) < 0xFFFFFF00 ∧
      (0x10 : Word).toNat + (2 ^ 32 - (0xFFFFFF00 : Word).toNat) < (300 : Word).toNat ∧
      (300 : Word) ≤ 0x12C ∧ (0x12B : Word) < 300 := by decide

theorem witness_HoldIsRealTimeUnderTheClockObligations :
    (block .idle 0 0 0).cls.st = .idle ∧ (block .idle 0 0 0).cls.cnt = 0 ∧
      ClockObeyed none [(4294967200, .press 4294967200), (4294967800, .release 504)] := by
  refine ⟨rfl, rfl, by decide, by simp, by decide, ?_, trivial⟩
  intro l hl
  cases hl
  decide

theorem witness_OnlyEnableLeavesDisabled :
    ∃ t, (fed [.op { op := 0x04 }]).cls.st = .disabled ∧ step (fed [.op { op := 0x04 }]) = .next t ∧
      t.cls.st ≠ .disabled :=
  ⟨_, rfl, rfl, by decide⟩

theorem witness_DisabledAbsorbsEdgesAndPolls :
    (block .disabled 0 0 0).cls.st = .disabled ∧ ∀ j ∈ [Instr.press 10, .release 20, .poll 400], IsEdgeOrPoll j := by decide

theorem witness_EachRegisterHasItsOwnWriters :
    (∃ t, exec (.setlt 7) State.reset = .next t ∧ t.cls.lt ≠ State.reset.cls.lt) ∧
    (∃ t, exec (.setit 7) State.reset = .next t ∧ t.cls.it ≠ State.reset.cls.it) ∧
    (∃ t, exec (.release 1) (block .pressed 0 0 0) = .next t ∧ t.cls.cnt ≠ (block .pressed 0 0 0).cls.cnt ∧
      t.cls.tm ≠ (block .pressed 0 0 0).cls.tm ∧ t.cls.st ≠ (block .pressed 0 0 0).cls.st) ∧
    (∃ t, exec (.selfunmask 1 7) State.reset = .next t ∧ t.codec.rMask ≠ State.reset.codec.rMask) ∧
    (∃ t, exec (.decode (List.replicate 20 0x31) 20) State.reset = .next t ∧
      t.codec.rArg ≠ State.reset.codec.rArg ∧ t.codec.rValid ≠ State.reset.codec.rValid) ∧
    (∃ t, exec (.matchId 1 1) State.reset = .next t ∧ t.codec.rBool ≠ State.reset.codec.rBool) ∧
    (∃ t, exec (.cmdkind [] 0) State.reset = .next t ∧ t.codec.rCmd ≠ State.reset.codec.rCmd) ∧
    (∃ t, exec (.encode 0 0 0) State.reset = .next t ∧ t.codec.obuf ≠ State.reset.codec.obuf ∧
      t.codec.olen ≠ State.reset.codec.olen) ∧
    ∃ t, exec (.encode 3 0 0) State.reset = .next t ∧ t.out.err = true :=
  ⟨⟨_, rfl, by decide⟩, ⟨_, rfl, by decide⟩, ⟨_, rfl, by decide⟩, ⟨_, rfl, by decide⟩, ⟨_, rfl, by decide⟩,
    ⟨_, rfl, by decide⟩, ⟨_, rfl, by decide⟩, ⟨_, rfl, by decide⟩, ⟨_, rfl, by decide⟩⟩

theorem witness_ClassifierAndCodecAreIndependent :
    (∃ t t', exec (.poll 5) State.reset = .next t ∧
      exec (.poll 5) { State.reset with codec := { CodecRegs.reset with rMask := 9 } } = .next t') ∧
    (∃ t t', exec (.clrbits 3 1) State.reset = .next t ∧ exec (.clrbits 3 1) (block .released 1 0 0) = .next t') ∧
    (opcode (.poll 5)).toNat < 0x10 ∧ 0x10 ≤ (opcode (.clrbits 3 1)).toNat :=
  ⟨⟨_, _, rfl, rfl⟩, ⟨_, _, rfl, rfl⟩, by decide, by decide⟩

theorem witness_RepeatedOperationsGiveTheSameResult :
    ¬ IsEdgeOrPoll .enable ∧ ∃ t, exec .enable State.reset = .next t := ⟨by decide, ⟨_, rfl⟩⟩

theorem witness_HiddenMarksNeverShowWhereNothingIsMeasured :
    (block .idle 0 0 0).cls.st = .idle ∧ (block .disabled 0 0 0).cls.st = .disabled ∧
    ((block .pressed 1 0 0).cls.st = .pressed ∧ (block .pressed 1 0 0).cls.cnt ≠ 0) ∧
    ∃ t t', performAll [.release 9000] (block .pressed 1 0 0) = .next t ∧
      performAll [.release 9000] (block .pressed 1 77 78) = .next t' :=
  ⟨rfl, rfl, by decide, ⟨_, _, rfl, rfl⟩⟩

theorem witness_InstancesShareNoState :
    (∃ sys', systemStep 0 [fed [.op (encode .enable)], State.reset] = .next sys') ∧ (1 : Nat) ≠ 0 :=
  ⟨⟨_, rfl⟩, by decide⟩

theorem witness_EveryStepKeepsTheInvariants : ∃ t, State.reset.Good ∧ step (State.reset.withFetchWord 8 0x04) = .next t :=
  ⟨_, ⟨⟨by decide, by decide, by decide, by decide⟩, ⟨by decide, by decide, by decide⟩, by decide, by decide, by decide⟩, rfl⟩

end Sys2Proof.Tests
end

/-! PROOFS. The statements about the state (10_state.md): its value after reset, the writers of each register, the
independence of the two parts, and the invariants that every step keeps. The lemmas stand over `clsAfter`, `codecAfter` and
`outAfter`, which say what an operation leaves in each part (`exec_after`). -/

namespace Sys2Proof.Proofs.BlockState

open Sys2Proof.Machine Sys2Proof.Laws

section Frames
/-! What the transitions of the classifier leave unchanged. -/

variable {w : Nat}

@[simp] theorem press_keeps (t : BitVec w) (c : Classifier w) :
    (c.press t).lt = c.lt ∧ (c.press t).it = c.it ∧ (c.press t).cnt = c.cnt := by
  rcases press_cases t c with ⟨-, e⟩ | ⟨-, e⟩ | ⟨-, -, e⟩ <;> rw [e] <;> exact ⟨rfl, rfl, rfl⟩

@[simp] theorem release_keeps (t : BitVec w) (c : Classifier w) :
    (c.release t).1.lt = c.lt ∧ (c.release t).1.it = c.it := by
  rcases release_cases t c with ⟨-, e⟩ | ⟨-, -, e⟩ | ⟨-, -, -, -, e⟩ <;> rw [e] <;> exact ⟨rfl, rfl⟩

@[simp] theorem poll_keeps (t : BitVec w) (c : Classifier w) :
    (c.poll t).1.lt = c.lt ∧ (c.poll t).1.it = c.it := by
  rcases poll_cases t c with ⟨-, e⟩ | ⟨-, -, e⟩ | ⟨-, -, e⟩ <;> rw [e] <;> exact ⟨rfl, rfl⟩

/-- Everything an ENABLE can do. -/
theorem enable_cases (c : Classifier w) :
    (c.st = .disabled ∧ c.enable = { c with st := .idle, cnt := 0 }) ∨ (c.st ≠ .disabled ∧ c.enable = c) := by
  by_cases h : c.st = .disabled
  · exact .inl ⟨h, enable_disabled c h⟩
  · exact .inr ⟨h, enable_noop c h⟩

@[simp] theorem enable_keeps (c : Classifier w) :
    c.enable.lt = c.lt ∧ c.enable.it = c.it ∧ c.enable.tm = c.tm := by
  rcases enable_cases c with ⟨-, e⟩ | ⟨-, e⟩ <;> rw [e] <;> exact ⟨rfl, rfl, rfl⟩

@[simp] theorem disable_keeps (c : Classifier w) :
    c.disable.lt = c.lt ∧ c.disable.it = c.it ∧ c.disable.tm = c.tm := ⟨rfl, rfl, rfl⟩

@[simp] theorem setLt_keeps (v : BitVec w) (c : Classifier w) :
    (c.setLt v).st = c.st ∧ (c.setLt v).cnt = c.cnt ∧ (c.setLt v).it = c.it ∧ (c.setLt v).tm = c.tm :=
  ⟨rfl, rfl, rfl, rfl⟩

@[simp] theorem setIt_keeps (v : BitVec w) (c : Classifier w) :
    (c.setIt v).st = c.st ∧ (c.setIt v).cnt = c.cnt ∧ (c.setIt v).lt = c.lt ∧ (c.setIt v).tm = c.tm :=
  ⟨rfl, rfl, rfl, rfl⟩

end Frames

section Invariants
/-! The invariants of the classifier's registers (R38) under each transition, for every width. -/

variable {w : Nat} {c : Classifier w}

theorem press_good (t : BitVec w) (h : c.Good) : (c.press t).Good := by
  rcases press_cases t c with ⟨-, e⟩ | ⟨-, e⟩ | ⟨-, -, e⟩ <;> rw [e]
  · exact h
  · exact ⟨nofun, nofun, nofun, Nat.le_refl _⟩
  · exact { h with marks_ordered := refreshedMarks_ordered t c.tm }

/-- The saturating count of a tap is never 0 (R38 (c)). -/
theorem one_le_sat16_succ (n : BitVec 16) : 1 ≤ (sat16 (n.toNat + 1)).toNat := by
  simp only [sat16, BitVec.toNat_ofNat]
  omega

theorem release_good (t : BitVec w) (h : c.Good) : (c.release t).1.Good := by
  rcases release_cases t c with ⟨-, e⟩ | ⟨-, -, e⟩ | ⟨-, hcnt, -, -, e⟩ <;> rw [e]
  · exact h
  · exact ⟨nofun, nofun, fun _ => one_le_sat16_succ c.cnt, Nat.le_refl _⟩
  · exact ⟨fun _ => hcnt, nofun, nofun, refreshedMarks_ordered t c.tm⟩

theorem poll_good (t : BitVec w) (h : c.Good) : (c.poll t).1.Good := by
  rcases poll_cases t c with ⟨-, e⟩ | ⟨-, -, e⟩ | ⟨-, -, e⟩ <;> rw [e]
  · exact h
  · exact { h with marks_ordered := refreshedMarks_ordered t c.tm }
  · exact ⟨fun _ => rfl, nofun, nofun, refreshedMarks_ordered t c.tm⟩

theorem enable_good (h : c.Good) : c.enable.Good := by
  rcases enable_cases c with ⟨-, e⟩ | ⟨-, e⟩ <;> rw [e]
  · exact ⟨fun _ => rfl, nofun, nofun, h.marks_ordered⟩
  · exact h

theorem disable_good (h : c.Good) : c.disable.Good := ⟨nofun, fun _ => rfl, nofun, h.marks_ordered⟩

theorem setLt_good (v : BitVec w) (h : c.Good) : (c.setLt v).Good := { h with }

theorem setIt_good (v : BitVec w) (h : c.Good) : (c.setIt v).Good := { h with }

end Invariants

/-- Every operation keeps the invariants of the classifier's registers (R38). -/
theorem clsAfter_good (i : Instr) {c : Classifier 32} (h : c.Good) : (clsAfter i c).Good := by
  cases i with
  | press t => exact press_good t h
  | release t => exact release_good t h
  | poll t => exact poll_good t h
  | enable => exact enable_good h
  | disable => exact disable_good h
  | setlt v => exact setLt_good v h
  | setit v => exact setIt_good v h
  | _ => exact h

-- The codec's registers

/-- The argument field has one to five digits (R163). -/
theorem decArg_length_bounds (a : BitVec 16) : 1 ≤ (decArg a).length ∧ (decArg a).length ≤ 5 := by
  rw [decArg_length]
  split_ifs <;> decide

/-- A payload has 24 to 28 bytes (R163). -/
theorem encodePayload_length_bounds {cmd : BitVec 2} {name : List Byte} (h : commandName cmd = some name) (m : Mask)
    (a : BitVec 16) : 24 ≤ (encodePayload name m a).length ∧ (encodePayload name m a).length ≤ Config.obufMax := by
  obtain ⟨hlo, hhi⟩ := decArg_length_bounds a
  rw [encodePayload_length h, Config.obufMax]
  omega

/-- ENCODE writes OBUF and OLEN alone. -/
theorem codecAfter_encode_frame (cmd : BitVec 2) (m : Mask) (a : BitVec 16) (r : CodecRegs) :
    ∃ b n, codecAfter (.encode cmd m a) r = { r with obuf := b, olen := n } := by
  simp only [codecAfter]
  split <;> exact ⟨_, _, rfl⟩

/-- DECODE writes its three result registers alone. -/
theorem codecAfter_decode_frame (b : List Byte) (n : Byte) (r : CodecRegs) :
    ∃ v m a, codecAfter (.decode b n) r = { r with rValid := v, rMask := m, rArg := a } := by
  simp only [codecAfter]
  split <;> exact ⟨_, _, _, rfl⟩

theorem codecAfter_encode_good (cmd : BitVec 2) (m : Mask) (a : BitVec 16) {r : CodecRegs} (h : r.Good) :
    (codecAfter (.encode cmd m a) r).Good := by
  cases hn : commandName cmd with
  | none =>
    simp only [codecAfter, hn]
    exact ⟨rfl, .inl rfl, h.invalid_arg⟩
  | some name =>
    have hlen := encodePayload_length_bounds hn m a
    simp only [codecAfter, hn]
    refine ⟨?_, .inr hlen, h.invalid_arg⟩
    rw [Config.obufMax] at hlen
    simp only [BitVec.toNat_ofNat]
    omega

theorem codecAfter_decode_good (b : List Byte) (n : Byte) {r : CodecRegs} (h : r.Good) :
    (codecAfter (.decode b n) r).Good := by
  simp only [codecAfter]
  split
  · exact { h with invalid_arg := nofun }
  · exact { h with invalid_arg := fun _ => rfl }

/-- Every operation keeps the invariants of the codec's registers (R29, R163, R167). -/
theorem codecAfter_good (i : Instr) {r : CodecRegs} (h : r.Good) : (codecAfter i r).Good := by
  cases i with
  | encode cmd m a => exact codecAfter_encode_good cmd m a h
  | decode b n => exact codecAfter_decode_good b n h
  | cmdkind b n => exact { h with }
  | matchId id m => exact { h with }
  | clrbits a b => exact { h with }
  | selfunmask id m => exact { h with }
  | _ => exact h

-- The outputs

/-- What the invariants ask of the outputs beside a classifier `c` (R38 (e), R140, R208): the last three fields of
`State.Good`. -/
def OutputsFit (o : Outputs) (c : Classifier 32) : Prop :=
  (o.evtKind = .short → 1 ≤ o.evtCount.toNat) ∧ (o.evtKind ≠ .short → o.evtCount = 0) ∧
    (o.evtKind ≠ .none → c.st = .idle ∧ c.cnt = 0 ∧ o.err = false)

theorem good_iff_parts (s : State) : s.Good ↔ s.cls.Good ∧ s.codec.Good ∧ OutputsFit s.out s.cls :=
  ⟨fun ⟨hcls, hcodec, hshort, hother, hidle⟩ => ⟨hcls, hcodec, hshort, hother, hidle⟩,
    fun ⟨hcls, hcodec, hshort, hother, hidle⟩ => ⟨hcls, hcodec, hshort, hother, hidle⟩⟩

theorem quiet_fits (err : Bool) (c : Classifier 32) : OutputsFit ⟨.none, 0, err⟩ c :=
  ⟨nofun, fun _ => rfl, fun h => absurd rfl h⟩

theorem short_fits {n : BitVec 16} (hn : 1 ≤ n.toNat) {c : Classifier 32} (hst : c.st = .idle) (hcnt : c.cnt = 0) :
    OutputsFit (outOfEvent (.short n)) c :=
  ⟨fun _ => hn, fun h => absurd rfl h, fun _ => ⟨hst, hcnt, rfl⟩⟩

theorem long_fits {c : Classifier 32} (hst : c.st = .idle) (hcnt : c.cnt = 0) : OutputsFit (outOfEvent .long) c :=
  ⟨nofun, fun _ => rfl, fun _ => ⟨hst, hcnt, rfl⟩⟩

/-- RELEASE emits LONG at most, from a sequence with no tap, and leaves Idle with it. -/
theorem release_fits (t : Word) (c : Classifier 32) : OutputsFit (outOfEvent (c.release t).2) (c.release t).1 := by
  rcases release_cases t c with ⟨-, e⟩ | ⟨-, -, e⟩ | ⟨-, hcnt, -, -, e⟩ <;> rw [e]
  · exact quiet_fits false _
  · exact quiet_fits false _
  · exact long_fits rfl hcnt

/-- POLL emits SHORT at most, from Released, where R38 (c) makes its count at least 1, and leaves Idle with it. -/
theorem poll_fits (t : Word) {c : Classifier 32} (h : c.Good) :
    OutputsFit (outOfEvent (c.poll t).2) (c.poll t).1 := by
  rcases poll_cases t c with ⟨-, e⟩ | ⟨-, -, e⟩ | ⟨hst, -, e⟩ <;> rw [e]
  · exact quiet_fits false _
  · exact quiet_fits false _
  · exact short_fits (h.released_cnt hst) rfl rfl

/-- Every operation on good registers leaves outputs that fit the classifier it leaves. -/
theorem outAfter_fits (i : Instr) {c : Classifier 32} (h : c.Good) : OutputsFit (outAfter i c) (clsAfter i c) := by
  cases i with
  | release t => exact release_fits t c
  | poll t => exact poll_fits t h
  | encode cmd m a => exact quiet_fits (commandName cmd).isNone _
  | _ => exact quiet_fits false _

-- The state

/-- What is presented next plays no part in the invariants. -/
theorem good_with_feed {s : State} (h : s.Good) (feed : List Stimulus) : { s with feed := feed }.Good := { h with }

/-- Every operation keeps the invariants. -/
theorem after_good (i : Instr) {s : State} (h : s.Good) : (after i s).Good :=
  (good_iff_parts _).mpr
    ⟨clsAfter_good i h.cls_good, codecAfter_good i h.codec_good, outAfter_fits i h.cls_good⟩

/-- The error outputs of a reserved code keep the invariants (R76). -/
theorem reserved_good {s : State} (h : s.Good) : { s with out := ⟨.none, 0, true⟩ }.Good :=
  (good_iff_parts _).mpr ⟨h.cls_good, h.codec_good, quiet_fits true _⟩

theorem reset_good : State.reset.Good :=
  (good_iff_parts _).mpr
    ⟨⟨nofun, fun _ => rfl, nofun, Nat.le_refl _⟩, ⟨rfl, .inl rfl, fun _ => rfl⟩, quiet_fits false _⟩

/-- Settles O58: a step waits, resets, performs an operation or a reserved code, and each keeps the invariants. -/
theorem everyStepKeepsTheInvariants : Obligations.EveryStepKeepsTheInvariants := by
  intro s t hs h
  rcases step_cases h with ⟨-, rfl⟩ | ⟨rest, -, rfl⟩ | ⟨p, rest, i, -, -, rfl⟩ | ⟨p, rest, e, -, -, rfl⟩
  · exact hs
  · exact good_with_feed reset_good rest
  · exact after_good i (good_with_feed hs rest)
  · exact good_with_feed (reserved_good hs) rest

/-- Settles O59, the base of O58. -/
theorem resetStateHasTheInvariants : Obligations.ResetStateHasTheInvariants := reset_good

/-- Settles O1: the reset state is a literal, compared field by field. -/
theorem resetLeavesTheListedValues : Obligations.ResetLeavesTheListedValues := by
  unfold Obligations.ResetLeavesTheListedValues
  decide

/-- A step with ports at the head of the feed performs them (R21). -/
theorem step_op {s : State} {p : Ports} {rest : List Stimulus} (h : s.feed = .op p :: rest) :
    step s = performPorts p { s with feed := rest } := by
  simp only [step, h]

/-- Ports that decode to an operation perform it (R75). -/
theorem performPorts_ok {p : Ports} {i : Instr} (h : decode p = .ok i) (s : State) : performPorts p s = exec i s := by
  simp only [performPorts, h]

/-- Settles O2: the step performs the ports at the head of the feed, and they decode to the operation. -/
theorem stepRunsTheDecodedOperation : Obligations.StepRunsTheDecodedOperation := by
  intro s p rest i hfeed hdecode
  rw [step_op hfeed, performPorts_ok hdecode]

/-- Settles O9: both operations read IBUF through `ibufBytes`, which is the first ILEN bytes. -/
theorem bytesBeyondIlenAreNeverRead : Obligations.BytesBeyondIlenAreNeverRead := by
  intro b c n s hb hc htake
  have hbytes : ibufBytes b n.toNat = ibufBytes c n.toNat := by
    rw [ibufBytes_eq_take hb, ibufBytes_eq_take hc, htake]
  simp only [exec, execDecode, execCmdkind, hbytes, and_self]

section Writers
/-! For each register, the operations that change it. -/

variable {i : Instr} {c : Classifier 32} {r : CodecRegs}

theorem setlt_of_lt_changed (h : (clsAfter i c).lt ≠ c.lt) : ∃ v, i = .setlt v := by
  cases i with
  | setlt v => exact ⟨v, rfl⟩
  | _ => simp [clsAfter] at h

theorem setit_of_it_changed (h : (clsAfter i c).it ≠ c.it) : ∃ v, i = .setit v := by
  cases i with
  | setit v => exact ⟨v, rfl⟩
  | _ => simp [clsAfter] at h

theorem writer_of_cnt_changed (h : (clsAfter i c).cnt ≠ c.cnt) :
    (∃ u, i = .release u ∨ i = .poll u) ∨ i = .enable ∨ i = .disable := by
  cases i with
  | release t => exact .inl ⟨t, .inl rfl⟩
  | poll t => exact .inl ⟨t, .inr rfl⟩
  | enable => exact .inr (.inl rfl)
  | disable => exact .inr (.inr rfl)
  | _ => simp [clsAfter] at h

theorem edgeOrPoll_of_tm_changed (h : (clsAfter i c).tm ≠ c.tm) : ∃ u, i = .press u ∨ i = .release u ∨ i = .poll u := by
  cases i with
  | press t => exact ⟨t, .inl rfl⟩
  | release t => exact ⟨t, .inr (.inl rfl)⟩
  | poll t => exact ⟨t, .inr (.inr rfl)⟩
  | _ => simp [clsAfter] at h

theorem writer_of_st_changed (h : (clsAfter i c).st ≠ c.st) :
    (∃ u, i = .press u ∨ i = .release u ∨ i = .poll u) ∨ i = .enable ∨ i = .disable := by
  cases i with
  | press t => exact .inl ⟨t, .inl rfl⟩
  | release t => exact .inl ⟨t, .inr (.inl rfl)⟩
  | poll t => exact .inl ⟨t, .inr (.inr rfl)⟩
  | enable => exact .inr (.inl rfl)
  | disable => exact .inr (.inr rfl)
  | _ => simp [clsAfter] at h

theorem writer_of_rMask_changed (h : (codecAfter i r).rMask ≠ r.rMask) :
    (∃ b n, i = .decode b n) ∨ (∃ a b, i = .clrbits a b) ∨ ∃ id m, i = .selfunmask id m := by
  cases i with
  | decode b n => exact .inl ⟨b, n, rfl⟩
  | clrbits a b => exact .inr (.inl ⟨a, b, rfl⟩)
  | selfunmask id m => exact .inr (.inr ⟨id, m, rfl⟩)
  | encode cmd m a =>
    obtain ⟨b, n, e⟩ := codecAfter_encode_frame cmd m a r
    exact absurd (by rw [e]) h
  | _ => exact absurd rfl h

theorem decode_of_rArg_or_rValid_changed (h : (codecAfter i r).rArg ≠ r.rArg ∨ (codecAfter i r).rValid ≠ r.rValid) :
    ∃ b n, i = .decode b n := by
  cases i with
  | decode b n => exact ⟨b, n, rfl⟩
  | encode cmd m a =>
    obtain ⟨b, n, e⟩ := codecAfter_encode_frame cmd m a r
    simp [e] at h
  | _ => simp [codecAfter] at h

theorem matchId_of_rBool_changed (h : (codecAfter i r).rBool ≠ r.rBool) : ∃ id m, i = .matchId id m := by
  cases i with
  | matchId id m => exact ⟨id, m, rfl⟩
  | encode cmd m a =>
    obtain ⟨b, n, e⟩ := codecAfter_encode_frame cmd m a r
    exact absurd (by rw [e]) h
  | decode b n =>
    obtain ⟨v, m, a, e⟩ := codecAfter_decode_frame b n r
    exact absurd (by rw [e]) h
  | _ => exact absurd rfl h

theorem cmdkind_of_rCmd_changed (h : (codecAfter i r).rCmd ≠ r.rCmd) : ∃ b n, i = .cmdkind b n := by
  cases i with
  | cmdkind b n => exact ⟨b, n, rfl⟩
  | encode cmd m a =>
    obtain ⟨b, n, e⟩ := codecAfter_encode_frame cmd m a r
    exact absurd (by rw [e]) h
  | decode b n =>
    obtain ⟨v, m, a, e⟩ := codecAfter_decode_frame b n r
    exact absurd (by rw [e]) h
  | _ => exact absurd rfl h

theorem encode_of_obuf_or_olen_changed (h : (codecAfter i r).obuf ≠ r.obuf ∨ (codecAfter i r).olen ≠ r.olen) :
    ∃ cmd m a, i = .encode cmd m a := by
  cases i with
  | encode cmd m a => exact ⟨cmd, m, a, rfl⟩
  | decode b n =>
    obtain ⟨v, m, a, e⟩ := codecAfter_decode_frame b n r
    simp [e] at h
  | _ => simp [codecAfter] at h

@[simp] theorem outOfEvent_err (ev : TapEvent) : (outOfEvent ev).err = false := by cases ev <;> rfl

/-- Among the operations, only an ENCODE of the code with no name sets `err` (R213). -/
theorem encode_three_of_err (h : (outAfter i c).err = true) : ∃ m a, i = .encode 3 m a := by
  cases i with
  | encode cmd m a =>
    obtain rfl : cmd = 3 := (commandName_eq_none cmd).mp (Option.isNone_iff_eq_none.mp h)
    exact ⟨m, a, rfl⟩
  | _ => simp [outAfter] at h

end Writers

/-- Settles O53, one register after the other, on the state that `exec_inv` gives. -/
theorem eachRegisterHasItsOwnWriters : Obligations.EachRegisterHasItsOwnWriters := by
  intro i s t h
  obtain rfl := exec_inv h
  exact ⟨setlt_of_lt_changed, setit_of_it_changed, writer_of_cnt_changed, edgeOrPoll_of_tm_changed,
    writer_of_st_changed, writer_of_rMask_changed, decode_of_rArg_or_rValid_changed, matchId_of_rBool_changed,
    cmdkind_of_rCmd_changed, encode_of_obuf_or_olen_changed, encode_three_of_err, rfl⟩

section Units
/-! What an operation of one unit leaves of the other's registers. -/

variable {i : Instr}

theorem codecAfter_of_unit_zero (h : (opcode i).toNat < 0x10) (r : CodecRegs) : codecAfter i r = r := by
  cases i with
  | encode | decode | cmdkind | matchId | clrbits | selfunmask => simp [opcode] at h
  | _ => rfl

theorem outAfter_err_of_unit_zero (h : (opcode i).toNat < 0x10) (c : Classifier 32) : (outAfter i c).err = false := by
  cases i with
  | encode => simp [opcode] at h
  | release | poll => exact outOfEvent_err _
  | _ => rfl

theorem clsAfter_of_unit_one (h : 0x10 ≤ (opcode i).toNat) (c : Classifier 32) : clsAfter i c = c := by
  cases i with
  | nop | press | release | poll | enable | disable | setlt | setit => simp [opcode] at h
  | _ => rfl

theorem outAfter_quiet_of_unit_one (h : 0x10 ≤ (opcode i).toNat) (c : Classifier 32) :
    (outAfter i c).evtKind = .none ∧ (outAfter i c).evtCount = 0 := by
  cases i with
  | release | poll => simp [opcode] at h
  | _ => exact ⟨rfl, rfl⟩

end Units

/-- Settles O54: an operation's effect on a part is a function of that part alone (`exec_inv`). -/
theorem classifierAndCodecAreIndependent : Obligations.ClassifierAndCodecAreIndependent := by
  intro i s s' t t' h h'
  obtain rfl := exec_inv h
  obtain rfl := exec_inv h'
  refine ⟨fun hcls => ?_, fun hcodec => ?_, fun hunit => ?_, fun hunit => ?_⟩
  · simp only [after_cls, after_out, hcls, and_self]
  · simp only [after_codec, hcodec]
  · exact ⟨codecAfter_of_unit_zero hunit s.codec, outAfter_err_of_unit_zero hunit s.cls⟩
  · exact ⟨clsAfter_of_unit_one hunit s.cls, outAfter_quiet_of_unit_one hunit s.cls⟩

end Sys2Proof.Proofs.BlockState

/-! PROOFS. The statements about memory and presentation (20_memory.md): the block holds no memory (R50), so they are about
the order in which presented operations run, the repetition of an operation, and instances that share no state. -/

namespace Sys2Proof.Proofs.Presentation

open Sys2Proof.Machine Sys2Proof.Laws Sys2Proof.Proofs.BlockState

@[simp] theorem encode_op (i : Instr) : (encode i).op = opcode i := by
  cases i <;> rfl

/-- The decoder inverts the presentation: the number of each code selects its row (R72), and the format carries the operands
(R73). -/
@[simp] theorem decode_encode (i : Instr) : decode (encode i) = .ok i := by
  rw [decode_by_numbers, encode_op]
  cases i <;> simp only [opcode] <;> rfl

theorem presentAll_cons (i : Instr) (is : List Instr) : presentAll (i :: is) = .op (encode i) :: presentAll is := rfl

/-- A step with a presented operation at the head of the feed performs it. -/
theorem step_presented {s : State} {i : Instr} {rest : List Stimulus} (h : s.feed = .op (encode i) :: rest) :
    step s = .next (after i { s with feed := rest }) := by
  rw [stepRunsTheDecodedOperation s (encode i) rest i h (decode_encode i), exec_after]

/-- A run goes on from the state its first step leaves. -/
theorem run_succ {s t : State} (h : step s = .next t) (k : Nat) :
    Host.Core.run core (k + 1) s = Host.Core.run core k t := by
  have hcore : core.step s = .next t := h
  simp only [Host.Core.run, hcore]

/-- Settles O10, by induction on the operations: each step takes one of them from the feed, and the operation keeps what is
presented after it. -/
theorem feedRunsInOrder : Obligations.FeedRunsInOrder := by
  intro is
  induction is with
  | nil => intro s rest hfeed; subst hfeed; rfl
  | cons i is ih =>
    intro s rest hfeed
    rw [presentAll_cons, List.cons_append] at hfeed
    rw [List.length_cons, run_succ (step_presented hfeed), ih _ rest rfl, performAll_cons]
    rfl

section Repetition
/-! What an operation with the same operands leaves on the state it has left. -/

/-- After an ENABLE the classifier is not in Disabled, so a second one does nothing (R132). -/
theorem enable_enable {w : Nat} (c : Classifier w) : c.enable.enable = c.enable := by
  rcases enable_cases c with ⟨-, e⟩ | ⟨hst, e⟩
  · rw [e]; exact enable_noop _ nofun
  · rw [e, e]

/-- In the classifier every operation without a timestamp, repeated, changes nothing more. -/
theorem clsAfter_clsAfter {i : Instr} (h : ¬ IsEdgeOrPoll i) (c : Classifier 32) :
    clsAfter i (clsAfter i c) = clsAfter i c := by
  cases i with
  | press t | release t | poll t => exact absurd nofun h
  | enable => exact enable_enable c
  | _ => rfl

/-- Results of the codec depend on the operands alone, so every operation, repeated, writes the same ones. -/
theorem codecAfter_codecAfter (i : Instr) (r : CodecRegs) : codecAfter i (codecAfter i r) = codecAfter i r := by
  cases i with
  | encode cmd m a => simp only [codecAfter]; cases commandName cmd <;> rfl
  | decode b n =>
    simp only [codecAfter]
    rcases decodeBody (ibufBytes b n.toNat) with _ | ⟨m, a⟩ <;> rfl
  | _ => rfl

/-- The outputs of an operation without a timestamp do not depend on the classifier. -/
theorem outAfter_eq_outAfter {i : Instr} (h : ¬ IsEdgeOrPoll i) (c d : Classifier 32) : outAfter i c = outAfter i d := by
  cases i with
  | press t | release t | poll t => exact absurd nofun h
  | _ => rfl

theorem after_after {i : Instr} (h : ¬ IsEdgeOrPoll i) (s : State) : after i (after i s) = after i s :=
  State.ext_parts (clsAfter_clsAfter h s.cls) (codecAfter_codecAfter i s.codec) (outAfter_eq_outAfter h _ _) rfl

end Repetition

/-- Settles O55, part by part on the state that `exec_inv` gives. -/
theorem repeatedOperationsGiveTheSameResult : Obligations.RepeatedOperationsGiveTheSameResult := by
  intro i s t hedge h
  obtain rfl := exec_inv h
  rw [exec_after, after_after hedge]

/-- Every step answers a next state (R200). -/
theorem exists_step_eq_next (s : State) : ∃ t, step s = .next t := by
  rcases hfeed : s.feed with _ | ⟨p | _, rest⟩
  · exact ⟨s, by simp only [step, hfeed]⟩
  · rw [step_op hfeed]
    cases hd : decode p with
    | ok i => exact ⟨_, by rw [performPorts_ok hd, exec_after]⟩
    | error e => exact ⟨_, by simp only [performPorts, hd]; rfl⟩
  · exact ⟨_, by simp only [step, hfeed]; rfl⟩

section Instances
/-! A system's step in terms of `f`, the function that a step of one block is (`exists_step_eq_next`). -/

variable {f : State → State} (hf : ∀ s, step s = .next (f s))
include hf

/-- A step of instance `k` applies the block's step at index `k` of the system. -/
theorem systemStep_eq_modify (k : Nat) (sys : System) : systemStep k sys = .next (sys.modify k f) := by
  cases hk : sys[k]? with
  | none => simp [systemStep, hk, List.modify_eq_set_getElem?]
  | some s => simp [systemStep, hk, hf, List.modify_eq_set_getElem?]

theorem systemRun_pair_eq_modify (k j : Nat) (sys : System) :
    systemRun [k, j] sys = .next ((sys.modify k f).modify j f) := by
  simp only [systemRun, systemStep_eq_modify hf]

end Instances

/-- Settles O57: a system's step writes one index of the list of instances, so it leaves every other index as it was
(`systemStep_set`), and two steps at different indices commute. -/
theorem instancesShareNoState : Obligations.InstancesShareNoState := by
  refine ⟨fun k j sys sys' h hjk => ?_, fun k j sys hkj => ?_⟩
  · rcases systemStep_set h with rfl | ⟨s', rfl⟩
    · rfl
    · exact List.getElem?_set_ne hjk.symm
  · choose f hf using exists_step_eq_next
    rw [systemRun_pair_eq_modify hf, systemRun_pair_eq_modify hf, List.modify_modify_ne f f sys hkj]

end Sys2Proof.Proofs.Presentation

/-! PROOFS. The statements about the encoding (30_encoding.md): the decoder reads the code and the ports of its format and
nothing else, the encoder fills exactly those, reserved codes only set `err`, and what the lines of a program stand for. -/

namespace Sys2Proof.Proofs.Encoding

open Sys2Proof.Machine Sys2Proof.Laws Sys2Proof.Proofs.BlockState Sys2Proof.Proofs.Presentation

section Formats
/-! What the decoder reads of the ports (R73): `decode_congr` says it of the code and its format,
`sameReadPorts_encode` of the operation. -/

variable {p q : Ports}

/-- A row of the opcode map reads the ports of its format alone: the row's code picks the clause of `SameReadPorts` that
covers the ports it reads. -/
theorem decodeFields_congr {u f : Nat} (hcode : p.op.toNat = 16 * u + f) (h : SameReadPorts p q) :
    decodeFields u f p = decodeFields u f q := by
  obtain ⟨hop, ht, hval, hGE, hGB, hGI, hGM⟩ := h
  rw [hcode] at ht hval hGE hGB hGI hGM
  unfold decodeFields
  split <;> simp_all

theorem decode_congr (h : SameReadPorts p q) : decode p = decode q := by
  rw [decode_by_numbers, decode_by_numbers, ← h.1]
  exact decodeFields_congr (Nat.div_add_mod _ 16).symm h

/-- What decodes to an operation agrees with its presentation, code by code. -/
theorem sameReadPorts_encode {i : Instr} (h : decode p = .ok i) : SameReadPorts p (encode i) := by
  rcases decode_ok_cases h with ⟨hop, rfl⟩ | ⟨hop, rfl⟩ | ⟨hop, rfl⟩ | ⟨hop, rfl⟩ | ⟨hop, rfl⟩ | ⟨hop, rfl⟩ |
    ⟨hop, rfl⟩ | ⟨hop, rfl⟩ | ⟨hop, rfl⟩ | ⟨hop, rfl⟩ | ⟨hop, rfl⟩ | ⟨hop, rfl⟩ | ⟨hop, rfl⟩ | ⟨hop, rfl⟩ <;>
  simp [SameReadPorts, hop, encode, opcode]

end Formats

/-- Settles O7: the decoder inverts the presentation, and no other ports decode to an operation than those that agree with its
presentation on the ports its format reads. -/
theorem decodeAndEncodeAgree : Obligations.DecodeAndEncodeAgree :=
  ⟨decode_encode, fun _ _ => sameReadPorts_encode⟩

section Reserved
/-! The reserved codes (R76), presented and as rows of the opcode table. -/

/-- Ports with a reserved code perform the operation of R76. -/
theorem performPorts_reserved {p : Ports} (h : IsReserved p.op) (s : State) :
    performPorts p s = .next { s with out := ⟨.none, 0, true⟩ } := by
  simp only [performPorts, decode_reserved h]
  rfl

theorem decodeTableWord_eq_none_iff (n : Nat) : decodeTableWord 8 n = none ↔ IsReserved (BitVec.ofNat 8 n) := by
  have hop : (tablePorts 8 n).op = BitVec.ofNat 8 n := BitVec.eq_of_toNat_eq (by simp [tablePorts])
  rw [decodeTableWord, ← hop]
  cases hd : decode (tablePorts 8 n) with
  | ok i =>
    refine iff_of_false nofun fun hres => ?_
    rw [decode_reserved hres] at hd
    cases hd
  | error e => exact iff_of_true rfl (decode_error hd).2

/-- Every code from 0x16 on is reserved: the rest of unit 1 and the units 2 to 15. -/
theorem isReserved_of_le {n : Nat} (h : 0x16 ≤ n) (hn : n < 256) : IsReserved (BitVec.ofNat 8 n) := by
  rw [IsReserved, BitVec.toNat_ofNat, Nat.mod_eq_of_lt hn]
  omega

/-- R76 counts 242 reserved codes: 8 below 0x16, and all the 234 from there on. -/
theorem length_filter_isReserved :
    ((List.range 256).filter fun n => IsReserved (BitVec.ofNat 8 n)).length = 242 := by
  have hlow : ((List.range 0x16).filter fun n => IsReserved (BitVec.ofNat 8 n)).length = 8 := by decide
  have hhigh : ∀ n ∈ (List.range 234).map (0x16 + ·), decide (IsReserved (BitVec.ofNat 8 n)) = true := by
    intro n hn
    obtain ⟨k, hk, rfl⟩ := List.mem_map.mp hn
    rw [List.mem_range] at hk
    exact decide_eq_true (isReserved_of_le (by omega) (by omega))
  rw [show 256 = 0x16 + 234 from rfl, List.range_add, List.filter_append, List.filter_eq_self.mpr hhigh,
    List.length_append, hlow, List.length_map, List.length_range]

end Reserved

/-- Settles O3: the step of a reserved code is `performPorts_reserved`, and the codes that decode to nothing are
the reserved ones (`decodeTableWord_eq_none_iff`). -/
theorem reservedCodesSetErrAndChangeNothingElse : Obligations.ReservedCodesSetErrAndChangeNothingElse := by
  refine ⟨fun s p rest hfeed hres => ?_, ?_, fun op => ?_⟩
  · rw [step_op hfeed, performPorts_reserved hres]
  · simp only [decodeTableWord_eq_none_iff]
    exact length_filter_isReserved
  · rw [decodeTableWord_eq_none_iff, BitVec.ofNat_toNat, BitVec.setWidth_eq]

/-- Settles O8: a step uses the ports only through what they decode to. -/
theorem portsOutsideTheFormatHaveNoEffect : Obligations.PortsOutsideTheFormatHaveNoEffect := by
  intro s p q rest h
  rw [step_op rfl, step_op rfl, performPorts, performPorts, decode_congr h]

/-- A code selects the row of its unit and function numbers (R71, R72). -/
theorem decode_of_op {p : Ports} {op : Byte} (h : p.op = op) :
    decode p = decodeFields (op.toNat / 16) (op.toNat % 16) p := by
  rw [decode_by_numbers, h]

/-- Settles O6: each defined code computes to its row of the opcode map, and the reserved ones are rejected. -/
theorem decodingFollowsTheOpcodeMap : Obligations.DecodingFollowsTheOpcodeMap := by
  intro p
  refine ⟨?_, ?_, ?_, ?_, ?_, ?_, ?_, ?_, ?_, ?_, ?_, ?_, ?_, ?_, decode_reserved⟩ <;> exact fun hop => decode_of_op hop

/-- After a DISABLE the classifier is in Disabled, so an ENABLE leaves Idle with no press counted. -/
theorem disable_enable {w : Nat} (c : Classifier w) : c.disable.enable = { c with st := .idle, cnt := 0 } :=
  enable_disabled c.disable rfl

/-- Settles O48: neither operation emits an event, and in the classifier they compose to `disable_enable`. -/
theorem restartDiscardsAnySequence : Obligations.RestartDiscardsAnySequence := by
  intro s
  constructor
  · rw [pseudoRestart, performAll_cons, performAll_cons, performAll_nil]
    exact congrArg Host.Outcome.next (State.ext_parts (disable_enable s.cls) rfl rfl rfl)
  · rw [pseudoRestart, sampledEvents_cons, sampledEvents_cons]
    rfl

/-- Settles O60: each line is a closed text that the assembler evaluates. -/
theorem assembledLinesPresentTheirOperations : Obligations.AssembledLinesPresentTheirOperations := by
  unfold Obligations.AssembledLinesPresentTheirOperations
  decide

end Sys2Proof.Proofs.Encoding

/-! PROOFS. The statements about the Monotonic Timer (40_timer.md), for every clock width: the two branches of TimerMarkNow, the
elapsed time across one wrap, and the order of the marks. -/

namespace Sys2Proof.Proofs.TimerMarks

open Sys2Proof.Machine

section Primitives
/-! The marks and the delta that the primitives leave, one equation for each branch. -/

variable {w : Nat}

/-- A clock below the start mark takes the wrap branch (R102). -/
theorem markNow_of_lt {t : BitVec w} {tm : Timer w} (h : t < tm.start) :
    tm.markNow t = ⟨0, BitVec.ofNat w (t.toNat + (maxTicks w - tm.start.toNat) + 1)⟩ :=
  if_pos h

/-- A clock at or above the start mark is taken as it is (R102). -/
theorem markNow_of_le {t : BitVec w} {tm : Timer w} (h : tm.start ≤ t) : tm.markNow t = ⟨tm.start, t⟩ :=
  if_neg (BitVec.not_lt.mpr h)

/-- In the wrap branch the now mark is the exact sum, which needs no reduction (R102). -/
theorem markNow_now_toNat_of_lt {t : BitVec w} {tm : Timer w} (h : t < tm.start) :
    (tm.markNow t).now.toNat = t.toNat + (maxTicks w - tm.start.toNat) + 1 := by
  rw [markNow_of_lt h, BitVec.toNat_ofNat, Nat.mod_eq_of_lt (wrap_sum_lt h)]

/-- TimerMarkNow always leaves the marks in order, whatever they were (R107). -/
theorem markNow_ordered (t : BitVec w) (tm : Timer w) : (tm.markNow t).start ≤ (tm.markNow t).now := by
  rw [markNow_eq_refreshed]
  exact refreshedMarks_ordered t tm

/-- With its marks in order TimerDelta is their plain difference (R104). -/
theorem delta_toNat_of_ordered {tm : Timer w} (h : tm.start ≤ tm.now) :
    tm.delta.toNat = tm.now.toNat - tm.start.toNat :=
  BitVec.toNat_sub_of_le h

end Primitives

/-- Settles O12: one clause for each branch of TimerMarkNow. -/
theorem timerMarkNowCorrectsOneWrap : Obligations.TimerMarkNowCorrectsOneWrap := by
  intro w t tm
  constructor
  · intro h
    exact ⟨congrArg Timer.start (markNow_of_lt h), markNow_now_toNat_of_lt h⟩
  · intro h
    rw [markNow_of_le h]
    exact ⟨rfl, rfl⟩

/-- Settles O13: TimerDelta after TimerMarkNow is a difference modulo `2^w` on either side of a wrap, so the mark cancels and
leaves `e`, which fits the width. -/
theorem elapsedIsExactUnderOneWrap : Obligations.ElapsedIsExactUnderOneWrap := by
  intro w s e tm he
  have hfit : e < 2 ^ w := Nat.lt_of_le_pred (Nat.two_pow_pos w) he
  have hcancel : BitVec.ofNat w (s + e) - BitVec.ofNat w s = BitVec.ofNat w e := by
    rw [BitVec.ofNat_add, BitVec.add_comm, BitVec.add_sub_cancel]
  rw [elapsed_fst, markAll_start, hcancel, BitVec.toNat_ofNat, Nat.mod_eq_of_lt hfit]

/-- Settles O14: the wrap correction leaves the start mark 0, and no clock is below 0, so the second read takes the other
branch. -/
theorem secondReadAfterAWrapMeasuresFromZero : Obligations.SecondReadAfterAWrapMeasuresFromZero := by
  intro w s t1 t2 tm h first
  have hzero : first.start = 0 := congrArg Timer.start (markNow_of_lt h)
  have hmarks : first.markNow t2 = ⟨0, t2⟩ := by
    rw [markNow_of_le (hzero ▸ BitVec.not_lt.mp BitVec.not_lt_zero), hzero]
  have hdelta : (first.markNow t2).delta = t2 := by
    rw [hmarks]
    exact BitVec.sub_zero t2
  refine ⟨hmarks, hdelta, ?_⟩
  have hs := s.isLt
  rw [hdelta]
  omega

/-- Settles O15: only TimerMarkNow can leave the marks apart, and each of its branches leaves them in order. -/
theorem everyPrimitiveOrdersTheMarks : Obligations.EveryPrimitiveOrdersTheMarks := by
  intro w t tm
  refine ⟨BitVec.le_refl _, rfl, rfl, markNow_ordered t tm, ?_⟩
  by_cases h : t < tm.start
  · exact .inr (congrArg Timer.start (markNow_of_lt h))
  · have hle := BitVec.not_lt.mp h
    exact .inl ⟨congrArg Timer.now (markNow_of_le hle), hle⟩

/-- Settles O11: the marks are read off the definitions, and the delta of ordered marks needs no reduction. -/
theorem markAllMarkLastAndDelta : Obligations.MarkAllMarkLastAndDelta :=
  fun _ _ _ => ⟨rfl, rfl, delta_toNat_of_ordered⟩

end Sys2Proof.Proofs.TimerMarks

/-! PROOFS. The statements about the Tap Classifier (41_classifier.md): each operation's rule, the events that operations in
sequence emit, whole taps and sequences of taps, and the states in which the timer marks do not matter. The lemmas cite the
transitions' equations and case lists (`press_cases`, `release_cases`, `poll_cases`). -/

namespace Sys2Proof.Proofs.TapClassifier

open Sys2Proof.Machine Sys2Proof.Laws Sys2Proof.Proofs.BlockState Sys2Proof.Proofs.Encoding

section Transitions
/-! What an operation of unit 0 leaves, given what its transition does to the classifier. -/

/-- The block with the classifier `c` and with outputs that show the event `ev`, all else as in `s`. -/
def showing (s : State) (c : Classifier 32) (ev : TapEvent) : State := { s with cls := c, out := outOfEvent ev }

variable {s : State} {t : Word} {c : Classifier 32} {ev : TapEvent}

@[simp] theorem showing_cls : (showing s c ev).cls = c := rfl

@[simp] theorem showing_event : (showing s c ev).event = ev := event_outOfEvent _ ev rfl

theorem showing_showing (d : Classifier 32) (e : TapEvent) : showing (showing s d e) c ev = showing s c ev := rfl

theorem after_press (h : s.cls.press t = c) : after (.press t) s = showing s c .none := by
  subst h; rfl

theorem after_release (h : s.cls.release t = (c, ev)) : after (.release t) s = showing s c ev := by
  simp only [after, clsAfter, outAfter, codecAfter, h, showing]

theorem after_poll (h : s.cls.poll t = (c, ev)) : after (.poll t) s = showing s c ev := by
  simp only [after, clsAfter, outAfter, codecAfter, h, showing]

/-- An operation answers the state it leaves, in any form of it. -/
theorem exec_eq_of_after {i : Instr} {u : State} (h : after i s = u) : exec i s = .next u := by
  rw [exec_after, h]

end Transitions

/-- Settles O17: one clause for each case of the transition. -/
theorem pressFollowsItsRule : Obligations.PressFollowsItsRule := by
  refine ⟨fun p hop => decode_of_op hop, fun t s => ⟨fun hst => ?_, fun hst hopen => ?_, fun hst hclosed => ?_,
    fun hst => ?_⟩⟩
  · exact exec_eq_of_after (after_press (press_idle t s.cls hst))
  · exact exec_eq_of_after (after_press (press_continue t s.cls hst hopen))
  · exact exec_eq_of_after (after_press (press_ignored t s.cls hst hclosed))
  · exact exec_eq_of_after (after_press (press_noop t s.cls hst))

/-- Settles O18: one clause for each case of the transition, with the saturating count by `sat16_succ`. -/
theorem releaseFollowsItsRule : Obligations.ReleaseFollowsItsRule := by
  refine ⟨fun p hop => decode_of_op hop, fun t s => ⟨fun hst hshort => ?_, fun hst hcnt hlt hheld => ?_,
    fun hst => ?_⟩⟩
  · rw [← sat16_succ]
    exact exec_eq_of_after (after_release (release_short t s.cls hst hshort))
  · exact exec_eq_of_after (after_release (release_long t s.cls hst hcnt hlt hheld))
  · have hnot : s.cls.st ≠ .pressed := by rcases hst with h | h | h <;> rw [h] <;> nofun
    exact exec_eq_of_after (after_release (release_noop t s.cls hnot))

/-- Settles O19: one clause for each case of the transition. -/
theorem pollFollowsItsRule : Obligations.PollFollowsItsRule := by
  refine ⟨fun p hop => decode_of_op hop, fun t s => ⟨fun hst hclosed => ?_, fun hst hopen => ?_, fun hst => ?_⟩⟩
  · exact exec_eq_of_after (after_poll (poll_end t s.cls hst hclosed))
  · exact exec_eq_of_after (after_poll (poll_open t s.cls hst hopen))
  · have hnot : s.cls.st ≠ .released := by rcases hst with h | h | h <;> rw [h] <;> nofun
    exact exec_eq_of_after (after_poll (poll_noop t s.cls hnot))

/-- Settles O20: the two cases of the transition. -/
theorem enableLeavesOnlyDisabled : Obligations.EnableLeavesOnlyDisabled := by
  refine ⟨fun p hop => decode_of_op hop, fun s => ⟨fun hst => ?_, fun hst => ?_⟩⟩
  · rw [← enable_disabled s.cls hst]; rfl
  · exact congrArg (fun c => Host.Outcome.next (showing s c .none)) (enable_noop s.cls hst)

/-- Settles O16: NOP is the clearing of R40 by definition. -/
theorem nopOnlyClearsTheOutputs : Obligations.NopOnlyClearsTheOutputs :=
  ⟨fun _ hop => decode_of_op hop, fun _ => rfl⟩

/-- Settles O21: DISABLE has one case. -/
theorem disableDiscardsTheSequence : Obligations.DisableDiscardsTheSequence :=
  ⟨fun _ hop => decode_of_op hop, fun _ => rfl⟩

/-- Settles O22: SETLT and SETIT have one case each. -/
theorem thresholdsAreWrittenInEveryState : Obligations.ThresholdsAreWrittenInEveryState :=
  ⟨fun _ => ⟨fun hop => decode_of_op hop, fun hop => decode_of_op hop⟩, fun _ _ => ⟨rfl, rfl⟩⟩

section Events
/-! Which operations emit an event, and what an invariant of the classifier says of all events sampled in a run. -/

/-- An operation emits nothing, or is a RELEASE that emits LONG, or a POLL that emits SHORT; whatever emits leaves Idle. -/
theorem outAfter_cases (i : Instr) (c : Classifier 32) :
    (outAfter i c).evtKind = .none ∨
    (∃ t, i = .release t ∧ c.st = .pressed ∧ c.cnt = 0 ∧ c.lt ≠ 0 ∧ outAfter i c = outOfEvent .long ∧
      clsAfter i c = { c with st := .idle, tm := refreshedMarks t c.tm }) ∨
    (∃ t, i = .poll t ∧ c.st = .released ∧ outAfter i c = outOfEvent (.short c.cnt) ∧
      clsAfter i c = { c with st := .idle, cnt := 0, tm := refreshedMarks t c.tm }) := by
  cases i with
  | release t =>
    simp only [outAfter, clsAfter]
    rcases release_cases t c with ⟨-, e⟩ | ⟨-, -, e⟩ | ⟨hst, hcnt, hlt, -, e⟩ <;> rw [e]
    · exact .inl rfl
    · exact .inl rfl
    · exact .inr (.inl ⟨t, rfl, hst, hcnt, hlt, rfl, rfl⟩)
  | poll t =>
    simp only [outAfter, clsAfter]
    rcases poll_cases t c with ⟨-, e⟩ | ⟨-, -, e⟩ | ⟨hst, -, e⟩ <;> rw [e]
    · exact .inl rfl
    · exact .inl rfl
    · exact .inr (.inr ⟨t, rfl, hst, rfl, rfl⟩)
  | _ => exact .inl rfl

theorem event_of_evtKind_none {s : State} (h : s.out.evtKind = .none) : s.event = .none := by
  simp only [State.event, h]

/-- The events an operation can emit, on the state it starts from. -/
theorem event_after_cases (i : Instr) (s : State) :
    (after i s).event = .none ∨
    (∃ t, i = .release t ∧ s.cls.cnt = 0 ∧ s.cls.lt ≠ 0 ∧ (after i s).event = .long) ∨
    (∃ t, i = .poll t ∧ (after i s).event = .short s.cls.cnt) := by
  rcases outAfter_cases i s.cls with h | ⟨t, hi, -, hcnt, hlt, hout, -⟩ | ⟨t, hi, -, hout, -⟩
  · exact .inl (event_of_evtKind_none h)
  · exact .inr (.inl ⟨t, hi, hcnt, hlt, event_outOfEvent _ _ hout⟩)
  · exact .inr (.inr ⟨t, hi, event_outOfEvent _ _ hout⟩)

/-- If the operations keep `Inv` and from it emit only events with `Q`, every event sampled has `Q`. -/
theorem forall_mem_sampledEvents {Inv : Classifier 32 → Prop} {Q : TapEvent → Prop} {is : List Instr}
    (hkeep : ∀ i ∈ is, ∀ c, Inv c → Inv (clsAfter i c))
    (hemit : ∀ i ∈ is, ∀ s : State, Inv s.cls → ∀ ev ∈ (after i s).event.sample, Q ev)
    {s : State} (h : Inv s.cls) : ∀ ev ∈ sampledEvents is s, Q ev := by
  induction is generalizing s with
  | nil => simp [sampledEvents]
  | cons i is ih =>
    intro ev hev
    rw [sampledEvents_cons] at hev
    rcases List.mem_append.mp hev with hev | hev
    · exact hemit i List.mem_cons_self s h ev hev
    · exact ih (fun j hj => hkeep j (List.mem_cons_of_mem i hj)) (fun j hj => hemit j (List.mem_cons_of_mem i hj))
        (hkeep i List.mem_cons_self s.cls h) ev hev

end Events

/-- Settles O42, by the cases of `outAfter_cases`. -/
theorem eventsComeFromReleaseAndPollAndLeaveIdle : Obligations.EventsComeFromReleaseAndPollAndLeaveIdle := by
  intro i s t h
  obtain rfl := exec_inv h
  simp only [after_out, after_cls]
  rcases outAfter_cases i s.cls with hnone | ⟨u, hi, hst, hcnt, -, hout, hcls⟩ | ⟨u, hi, hst, hout, hcls⟩
  · rw [hnone]
    exact ⟨nofun, nofun, fun hne => absurd rfl hne⟩
  · rw [hout, hcls]
    exact ⟨fun _ => ⟨⟨u, hi⟩, hst⟩, nofun, fun _ => ⟨rfl, hcnt⟩⟩
  · rw [hout, hcls]
    exact ⟨nofun, fun _ => ⟨⟨u, hi⟩, hst, rfl⟩, fun _ => ⟨rfl, rfl⟩⟩

section InsideASequence
/-! Once the count is not 0 it stays so under edges, and no edge emits an event (R126). -/

/-- The count saturates and so never comes back to 0 (R23). -/
theorem sat16_ne_zero {n : Nat} (h : n ≠ 0) : sat16 n ≠ 0 := by
  intro e
  have he : (sat16 n).toNat = 0 := congrArg BitVec.toNat e
  simp only [sat16, BitVec.toNat_ofNat] at he
  omega

theorem cnt_ne_zero_of_edge {i : Instr} (hi : IsEdge i) {c : Classifier 32} (h : c.cnt ≠ 0) : (clsAfter i c).cnt ≠ 0 := by
  rcases hi with ⟨t, rfl⟩ | ⟨t, rfl⟩ <;> simp only [clsAfter]
  · rwa [(press_keeps t c).2.2]
  · rcases release_cases t c with ⟨-, e⟩ | ⟨-, -, e⟩ | ⟨-, -, -, -, e⟩ <;> rw [e]
    · exact h
    · exact sat16_ne_zero (Nat.succ_ne_zero _)
    · exact h

theorem event_none_of_edge {i : Instr} (hi : IsEdge i) {s : State} (h : s.cls.cnt ≠ 0) : (after i s).event = .none := by
  rcases event_after_cases i s with hev | ⟨-, -, hcnt, -⟩ | ⟨t, rfl, -⟩
  · exact hev
  · exact absurd hcnt h
  · rcases hi with ⟨u, he⟩ | ⟨u, he⟩ <;> cases he

theorem sampledEvents_edges_eq_nil {is : List Instr} (his : ∀ i ∈ is, IsEdge i) {s : State} (h : s.cls.cnt ≠ 0) :
    sampledEvents is s = [] := by
  refine List.eq_nil_iff_forall_not_mem.mpr
    (forall_mem_sampledEvents (Inv := fun c => c.cnt ≠ 0) (fun i hi _ => cnt_ne_zero_of_edge (his i hi))
      (fun i hi s hs ev hev => ?_) h)
  rw [event_none_of_edge (his i hi) hs] at hev
  exact List.not_mem_nil hev

theorem isEdge_of_mem_pseudoTap {a b : Word} {i : Instr} (h : i ∈ pseudoTap a b) : IsEdge i := by
  rcases List.mem_pair.mp h with rfl | rfl
  · exact .inl ⟨a, rfl⟩
  · exact .inr ⟨b, rfl⟩

end InsideASequence

/-- Settles O40: the invariant is a count that is not 0, which every edge keeps. -/
theorem tapsInsideASequenceAreNeverLong : Obligations.TapsInsideASequenceAreNeverLong :=
  fun is s _ hcnt his => ⟨⟨_, performAll_afterAll is s⟩, sampledEvents_edges_eq_nil his hcnt⟩

/-- Settles O41: LONG needs a threshold that is not 0, and only SETLT writes the threshold (`setlt_of_lt_changed`). -/
theorem noLongTapWhileDetectionIsOff : Obligations.NoLongTapWhileDetectionIsOff := by
  constructor
  · intro s t hlt hst
    exact ⟨_, exec_eq_of_after (after_release (release_short t s.cls hst (.inr (.inr hlt)))), rfl, rfl⟩
  · intro is s hlt his
    refine ⟨⟨_, performAll_afterAll is s⟩, fun hlong => ?_⟩
    refine forall_mem_sampledEvents (Inv := fun c => c.lt = 0) (Q := (· ≠ .long)) (fun i hi c hc => ?_)
      (fun i _ s hs ev hev => ?_) hlt .long hlong rfl
    · by_contra hne
      obtain ⟨v, rfl⟩ := setlt_of_lt_changed (c := c) (by rwa [hc])
      exact his _ hi v rfl
    · rcases event_after_cases i s with h | ⟨-, -, -, h, -⟩ | ⟨-, -, h⟩
      · rw [h] at hev; exact absurd hev List.not_mem_nil
      · exact absurd hs h
      · rw [h] at hev; rw [List.mem_singleton.mp hev]; nofun

section Runs
/-! Operations in sequence with the state they leave and the events sampled, both at once. -/

/-- The operations `is` lead from `s` to `t`, and `evs` are the events sampled on the way. -/
def Runs (is : List Instr) (s t : State) (evs : List TapEvent) : Prop :=
  performAll is s = .next t ∧ sampledEvents is s = evs

variable {is js : List Instr} {s t u : State} {evs fvs : List TapEvent}

theorem runs_nil : Runs [] s s [] := ⟨rfl, rfl⟩

theorem Runs.cons {i : Instr} (hi : after i s = t) (h : Runs is t u evs) :
    Runs (i :: is) s u (t.event.sample ++ evs) := by
  rw [Runs, performAll_cons, sampledEvents_cons, hi, h.1, h.2]
  exact ⟨rfl, rfl⟩

theorem Runs.append (h : Runs is s t evs) (h' : Runs js t u fvs) : Runs (is ++ js) s u (evs ++ fvs) := by
  obtain ⟨hperform, rfl⟩ := h
  rw [performAll_afterAll, Host.Outcome.next.injEq] at hperform
  subst hperform
  obtain ⟨hperform', rfl⟩ := h'
  refine ⟨?_, sampledEvents_append is js s⟩
  rw [performAll_afterAll, afterAll_append, ← performAll_afterAll, hperform']

variable {c : Classifier 32} {ev : TapEvent}

theorem runs_poll {p : Word} (h : s.cls.poll p = (c, ev)) : Runs [.poll p] s (showing s c ev) ev.sample := by
  simpa using Runs.cons (after_poll h) runs_nil

/-- A tap runs as a press and a release of the classifier; only the release can emit. -/
theorem runs_tap {a b : Word} (h : (s.cls.press a).release b = (c, ev)) :
    Runs (pseudoTap a b) s (showing s c ev) ev.sample := by
  have hrelease : Runs [.release b] (showing s (s.cls.press a) .none) (showing s c ev) (ev.sample ++ []) := by
    simpa [showing_showing] using Runs.cons (after_release (s := showing s (s.cls.press a) .none) h) runs_nil
  rw [List.append_nil] at hrelease
  exact Runs.cons (after_press rfl) hrelease

end Runs

section Taps
/-! What one tap does to the classifier. -/

variable {w : Nat}

/-- The classifier after `n` taps of a sequence, the last one released at `r`: the thresholds are those of `c`. -/
def tapped (c : Classifier w) (n : Nat) (r : BitVec w) : Classifier w :=
  { c with st := .released, cnt := sat16 n, tm := ⟨r, r⟩ }

variable {c : Classifier w} {a b : BitVec w}

/-- The first tap of a sequence, held shorter than the threshold or with detection off (R125). -/
theorem tap_first_short (hst : c.st = .idle) (hcnt : c.cnt = 0) (hheld : ticksBetween a b < c.lt.toNat ∨ c.lt = 0) :
    (c.press a).release b = (tapped c 1 b, .none) := by
  rw [press_idle a c hst, release_short _ _ rfl (.inr hheld)]
  simp [tapped, hcnt]

/-- A first tap held at least the threshold (R125). -/
theorem tap_first_long (hst : c.st = .idle) (hcnt : c.cnt = 0) (hlt : c.lt ≠ 0) (hheld : c.lt.toNat ≤ ticksBetween a b) :
    (c.press a).release b = ({ c with st := .idle, tm := refreshedMarks b ⟨a, a⟩ }, .long) := by
  rw [press_idle a c hst]
  exact release_long b _ rfl hcnt hlt hheld

/-- The count of one tap more saturates (R23). -/
theorem sat16_toNat_succ (n : Nat) : sat16 ((sat16 n).toNat + 1) = sat16 (n + 1) := by
  apply BitVec.eq_of_toNat_eq
  simp only [sat16, BitVec.toNat_ofNat]
  omega

/-- A tap that starts inside the window is one more of the sequence, however long it is held (R126). -/
theorem tap_inside_window {n : Nat} {r : BitVec w} (hn : n ≠ 0) (hgap : ticksBetween r a < c.it.toNat) :
    ((tapped c n r).press a).release b = (tapped c (n + 1) b, .none) := by
  rw [press_continue a _ rfl hgap, release_short _ _ rfl (.inl (sat16_ne_zero hn))]
  simp [tapped, sat16_toNat_succ]

/-- A press after the window has closed is ignored, and its release with it (R123). -/
theorem tap_after_window (hst : c.st = .released) (hgap : c.it.toNat ≤ ticksBetween c.tm.start a) :
    (c.press a).release b = ({ c with tm := refreshedMarks a c.tm }, .none) := by
  rw [press_ignored a c hst hgap, release_noop]
  simp [hst]

end Taps

/-- A hold of `v` ticks is measured as `v`, across a wrap too (R106). -/
theorem ticksBetween_add {w : Nat} (a v : BitVec w) : ticksBetween a (a + v) = v.toNat := by
  rw [← sub_toNat_ticks, BitVec.add_comm, BitVec.add_sub_cancel]

/-- Settles O39: the two holds are on either side of the comparison of R125, and a tap inside a sequence is two edges. -/
theorem longTapBoundaryIsExact : Obligations.LongTapBoundaryIsExact := by
  refine ⟨fun s t0 hst hcnt hlt => ⟨?_, ?_⟩, fun s a b hcnt => ?_⟩
  · have hheld : ticksBetween t0 (t0 + s.cls.lt - 1) < s.cls.lt.toNat := by
      rw [BitVec.sub_eq_add_neg, BitVec.add_assoc, ← BitVec.sub_eq_add_neg, ticksBetween_add]
      bv_omega
    exact ⟨_, (runs_tap (tap_first_short hst hcnt (.inl hheld))).1, rfl, rfl, rfl⟩
  · have hheld : s.cls.lt.toNat ≤ ticksBetween t0 (t0 + s.cls.lt) := (ticksBetween_add t0 s.cls.lt).ge
    exact ⟨_, (runs_tap (tap_first_long hst hcnt hlt hheld)).1, rfl, hcnt, rfl⟩
  · have hne : s.cls.cnt ≠ 0 := by
      intro e
      rw [e] at hcnt
      exact absurd hcnt (by decide)
    rw [sampledEvents_edges_eq_nil (fun _ => isEdge_of_mem_pseudoTap) hne]
    exact List.not_mem_nil

theorem tapSequence_cons (a b : Word) (taps : List (Word × Word)) :
    tapSequence ((a, b) :: taps) = pseudoTap a b ++ tapSequence taps := rfl

/-- Taps inside the window add up to the sequence and emit nothing. -/
theorem runs_tapSequence (s : State) (c : Classifier 32) {n : Nat} (hn : n ≠ 0) {r : Word} {taps : List (Word × Word)}
    (hgaps : GapsWithin c.it r taps) :
    Runs (tapSequence taps) (showing s (tapped c n r) .none)
      (showing s (tapped c (n + taps.length) (lastRelease r taps)) .none) [] := by
  induction taps generalizing n r with
  | nil => exact runs_nil
  | cons tap taps ih =>
    obtain ⟨a, b⟩ := tap
    obtain ⟨hgap, hgaps⟩ := hgaps
    have htap := runs_tap (s := showing s (tapped c n r) .none) (tap_inside_window (b := b) hn hgap)
    rw [tapSequence_cons, List.length_cons, ← Nat.add_assoc, Nat.add_right_comm]
    exact htap.append (ih (Nat.succ_ne_zero n) hgaps)

/-- Settles O43: the first tap opens the sequence, the others add up (`runs_tapSequence`), and the poll ends it. -/
theorem tapSequenceEndsInOneShortTap : Obligations.TapSequenceEndsInOneShortTap := by
  intro s a b t taps hst hcnt hheld hgaps hclosed
  have hfirst := runs_tap (tap_first_short hst hcnt hheld)
  have hothers := runs_tapSequence s s.cls one_ne_zero hgaps
  have hend := runs_poll (s := showing s (tapped s.cls (1 + taps.length) (lastRelease b taps)) .none)
    (poll_end t _ rfl hclosed)
  have hrun := (hfirst.append hothers).append hend
  rw [Nat.add_comm taps.length 1, tapSequence_cons]
  exact ⟨⟨_, hrun.1, rfl, rfl⟩, hrun.2⟩

section LostPress
/-! Where the window is measured from after an ignored press (R123, R235). -/

variable {w : Nat} {tm : Timer w} {a p : BitVec w}

/-- Where the press saw no wrap, the mark stays and the elapsed time only grows, until the clock comes round to the mark. -/
theorem ticksBetween_le_after_press (ha : tm.start ≤ a) (hp : a ≤ p ∨ p < tm.start) :
    ticksBetween tm.start a ≤ ticksBetween (refreshedMarks a tm).start p := by
  have hlt := a.isLt
  simp only [refreshedMarks, ticksBetween, BitVec.lt_def, BitVec.le_def] at *
  split_ifs <;> dsimp only at * <;> omega

/-- Where the press saw the wrap, the elapsed time is the clock itself (R235 (d)). -/
theorem ticksBetween_after_wrap (ha : a < tm.start) : ticksBetween (refreshedMarks a tm).start p = p.toNat := by
  simp [refreshedMarks, ha, ticksBetween]

end LostPress

/-- Settles O44: the tap only refreshes the marks (`tap_after_window`), and the poll compares the window with the time since
the refreshed start mark. -/
theorem pressAfterTheWindowIsLost : Obligations.PressAfterTheWindowIsLost := by
  intro s a r hst hclosed
  have htap := runs_tap (b := r) (tap_after_window hst hclosed)
  refine ⟨⟨_, htap.1, hst, rfl, rfl⟩, htap.2, fun p => ?_⟩
  set lost : State := showing s { s.cls with tm := refreshedMarks a s.cls.tm } .none
  have hperform : performAll (pseudoTap a r ++ [.poll p]) s = .next (after (.poll p) lost) :=
    (htap.append (Runs.cons rfl runs_nil)).1
  have hends (h : s.cls.it.toNat ≤ ticksBetween (refreshedMarks a s.cls.tm).start p) :
      after (.poll p) lost = showing lost _ (.short s.cls.cnt) := after_poll (poll_end p _ hst h)
  refine ⟨_, hperform, fun ha hp => ?_, fun ha hp => ?_, fun ha hp => ?_⟩
  · rw [hends (hclosed.trans (ticksBetween_le_after_press ha hp))]
    exact ⟨rfl, rfl, rfl⟩
  · rw [hends ((ticksBetween_after_wrap ha).symm ▸ hp)]
    exact ⟨rfl, rfl, rfl⟩
  · have hopen : ticksBetween (refreshedMarks a s.cls.tm).start p < s.cls.it.toNat :=
      (ticksBetween_after_wrap ha).symm ▸ hp
    rw [after_poll (poll_open p lost.cls hst hopen)]
    exact ⟨hst, rfl, rfl⟩

/-- Settles O45: with the window 0 every elapsed time has reached it, so a press in Released is ignored and the poll after a
short tap ends its sequence. -/
theorem zeroWindowMakesEveryTapOneEvent : Obligations.ZeroWindowMakesEveryTapOneEvent := by
  have hclosed {c : Classifier 32} (hit : c.it = 0) (n : Nat) : c.it.toNat ≤ n := hit ▸ Nat.zero_le n
  constructor
  · intro s t hit hst
    exact ⟨_, exec_eq_of_after (after_press (press_ignored t s.cls hst (hclosed hit _))), hst, rfl⟩
  · intro s a b c hst hcnt hit
    split
    case isTrue hlong =>
      obtain ⟨hlt, hheld⟩ := hlong
      have hrun := (runs_tap (tap_first_long hst hcnt hlt hheld)).append (runs_poll (p := c) (poll_noop c _ nofun))
      exact ⟨⟨_, hrun.1, rfl⟩, hrun.2⟩
    case isFalse hshort =>
      have hheld : ticksBetween a b < s.cls.lt.toNat ∨ s.cls.lt = 0 := by
        rw [not_and_or, not_not, Nat.not_le] at hshort
        exact hshort.symm
      have hrun := (runs_tap (tap_first_short hst hcnt hheld)).append
        (runs_poll (p := c) (poll_end c _ rfl (hclosed hit _)))
      exact ⟨⟨_, hrun.1, rfl⟩, hrun.2⟩

/-- An edge or a poll in Disabled clears the outputs and does nothing else (R134). -/
theorem after_disabled {i : Instr} (hi : IsEdgeOrPoll i) {s : State} (hst : s.cls.st = .disabled) :
    after i s = showing s s.cls .none := by
  cases i with
  | press t => exact after_press (press_noop t _ (.inr hst))
  | release t => exact after_release (release_noop t _ (hst ▸ nofun))
  | poll t => exact after_poll (poll_noop t _ (hst ▸ nofun))
  | _ => exact absurd rfl hi

theorem runs_disabled {i : Instr} {is : List Instr} (his : ∀ j ∈ i :: is, IsEdgeOrPoll j) {s : State}
    (hst : s.cls.st = .disabled) : Runs (i :: is) s (showing s s.cls .none) [] := by
  induction is generalizing i s with
  | nil => exact .cons (after_disabled (his i List.mem_cons_self) hst) runs_nil
  | cons j js ih =>
    obtain ⟨hi, hjs⟩ := List.forall_mem_cons.mp his
    exact .cons (after_disabled hi hst) (ih hjs hst)

/-- Settles O52. -/
theorem disabledAbsorbsEdgesAndPolls : Obligations.DisabledAbsorbsEdgesAndPolls :=
  fun _ _ _ hst his => runs_disabled his hst

section HiddenMarks
/-! The states in which no operation reads the timer marks (R124): each operation either overwrites the marks or leaves
another such state with the marks it found. -/

/-- The classifier `c` with the marks `tm` in place of its own. -/
def withMarks (tm : Timer 32) (c : Classifier 32) : Classifier 32 := { c with tm := tm }

/-- Idle, Disabled, and Pressed inside a sequence. -/
def Unmeasured (c : Classifier 32) : Prop := c.st = .idle ∨ c.st = .disabled ∨ (c.st = .pressed ∧ c.cnt ≠ 0)

variable {c : Classifier 32}

theorem Unmeasured.not_released (h : Unmeasured c) : c.st ≠ .released := by
  rcases h with h | h | ⟨h, -⟩ <;> rw [h] <;> nofun

theorem press_withMarks (t : Word) (h : Unmeasured c) (tm : Timer 32) :
    (withMarks tm c).press t = c.press t ∨ (c.press t = c ∧ (withMarks tm c).press t = withMarks tm c) := by
  rcases press_cases t c with ⟨hst, e⟩ | ⟨hst | ⟨hst, -⟩, e⟩ | ⟨hst, -, -⟩
  · exact .inr ⟨e, press_noop t _ hst⟩
  · exact .inl (e ▸ press_idle t (withMarks tm c) hst)
  all_goals exact absurd hst h.not_released

theorem release_withMarks (t : Word) (h : Unmeasured c) (tm : Timer 32) :
    (withMarks tm c).release t = c.release t ∨
    (c.release t = (c, .none) ∧ (withMarks tm c).release t = (withMarks tm c, .none)) := by
  rcases h with hst | hst | ⟨hst, hcnt⟩
  · exact .inr ⟨release_noop t c (hst ▸ nofun), release_noop t (withMarks tm c) (hst ▸ nofun)⟩
  · exact .inr ⟨release_noop t c (hst ▸ nofun), release_noop t (withMarks tm c) (hst ▸ nofun)⟩
  · rw [release_short t c hst (.inl hcnt)]
    exact .inl (release_short t (withMarks tm c) hst (.inl hcnt))

theorem poll_withMarks (t : Word) (h : Unmeasured c) (tm : Timer 32) :
    c.poll t = (c, .none) ∧ (withMarks tm c).poll t = (withMarks tm c, .none) :=
  ⟨poll_noop t c h.not_released, poll_noop t (withMarks tm c) h.not_released⟩

theorem enable_withMarks (h : Unmeasured c) (tm : Timer 32) :
    Unmeasured c.enable ∧ (withMarks tm c).enable = withMarks tm c.enable := by
  rcases enable_cases c with ⟨hst, e⟩ | ⟨hst, e⟩ <;> rw [e]
  · exact ⟨.inl rfl, enable_disabled (withMarks tm c) hst⟩
  · exact ⟨h, enable_noop (withMarks tm c) hst⟩

/-- Either the marks an operation found leave no trace, or they are still there and unmeasured. -/
theorem clsAfter_withMarks (i : Instr) (h : Unmeasured c) (tm : Timer 32) :
    clsAfter i (withMarks tm c) = clsAfter i c ∨
    (Unmeasured (clsAfter i c) ∧ clsAfter i (withMarks tm c) = withMarks tm (clsAfter i c)) := by
  cases i with
  | press t =>
    refine (press_withMarks t h tm).imp_right fun ⟨e, e'⟩ => ?_
    simp only [clsAfter, e, e', h, and_self]
  | release t =>
    refine (release_withMarks t h tm).imp (congrArg Prod.fst) fun ⟨e, e'⟩ => ?_
    simp only [clsAfter, e, e', h, and_self]
  | poll t =>
    obtain ⟨e, e'⟩ := poll_withMarks t h tm
    simp only [clsAfter, e, e', h, and_self, or_true]
  | enable => exact .inr (enable_withMarks h tm)
  | disable => exact .inr ⟨.inr (.inl rfl), rfl⟩
  | _ => exact .inr ⟨h, rfl⟩

theorem outAfter_withMarks (i : Instr) (h : Unmeasured c) (tm : Timer 32) :
    outAfter i (withMarks tm c) = outAfter i c := by
  cases i with
  | release t => rcases release_withMarks t h tm with e | ⟨e, e'⟩ <;> simp only [outAfter, *]
  | poll t =>
    obtain ⟨e, e'⟩ := poll_withMarks t h tm
    simp only [outAfter, e, e']
  | _ => rfl

/-- The block `s` with the marks `tm` in place of its own. -/
def remarked (tm : Timer 32) (s : State) : State := { s with cls := withMarks tm s.cls }

theorem after_remarked (i : Instr) {s : State} (h : Unmeasured s.cls) (tm : Timer 32) :
    after i (remarked tm s) = after i s ∨
    (Unmeasured (after i s).cls ∧ after i (remarked tm s) = remarked tm (after i s)) := by
  have hout : outAfter i (withMarks tm s.cls) = outAfter i s.cls := outAfter_withMarks i h tm
  rcases clsAfter_withMarks i h tm with e | ⟨hkeep, e⟩
  · exact .inl (State.ext_parts e rfl hout rfl)
  · exact .inr ⟨hkeep, State.ext_parts e rfl hout rfl⟩

theorem afterAll_cons (i : Instr) (is : List Instr) (s : State) : afterAll (i :: is) s = afterAll is (after i s) := rfl

/-- From an unmeasured classifier no run of operations shows the marks it started with. -/
theorem visible_afterAll_remarked (is : List Instr) {s : State} (h : Unmeasured s.cls) (tm : Timer 32) :
    (afterAll is (remarked tm s)).visible = (afterAll is s).visible := by
  induction is generalizing s with
  | nil => rfl
  | cons i is ih =>
    rw [afterAll_cons, afterAll_cons]
    rcases after_remarked i h tm with e | ⟨hkeep, e⟩
    · rw [e]
    · rw [e, ih hkeep]

end HiddenMarks

/-- Settles O56, by induction on the operations (`visible_afterAll_remarked`): the marks are not visible, and a run from an
unmeasured classifier overwrites them before it reads them. -/
theorem hiddenMarksNeverShowWhereNothingIsMeasured : Obligations.HiddenMarksNeverShowWhereNothingIsMeasured := by
  intro is s t t' tm hst h h'
  rw [performAll_afterAll] at h h'
  obtain rfl := Host.Outcome.next.inj h
  obtain rfl := Host.Outcome.next.inj h'
  exact (visible_afterAll_remarked is hst tm).symm

end Sys2Proof.Proofs.TapClassifier

/-! PROOFS. The statements about the Group Protocol Codec (42_codec.md): the text that ENCODE writes, what DECODE and CMDKIND read
of a text, the mask operations, and the laws that join them. Each operation has an equation for what it leaves, the mask
operations are described bit by bit, and the laws are assembled from these. -/

namespace Sys2Proof.Proofs.GroupCodec

open Sys2Proof.Machine Sys2Proof.Laws Sys2Proof.Proofs.BlockState Sys2Proof.Proofs.Encoding

/-- The block with the codec's registers `r` and outputs that show nothing, all else as in `s`. -/
def holding (s : State) (r : CodecRegs) : State := { s with codec := r, out := ⟨.none, 0, false⟩ }

section Text
/-! The payload and its two fields (R160 to R163). -/

variable {cmd : BitVec 2} {name : List Byte} (m : Mask) (a : BitVec 16) (s : State)

theorem exists_commandName (h : cmd ≠ 3) : ∃ name, commandName cmd = some name :=
  Option.ne_none_iff_exists'.mp ((commandName_eq_none cmd).not.mpr h)

/-- ENCODE with a named command (R160). -/
theorem exec_encode_named (h : commandName cmd = some name) :
    exec (.encode cmd m a) s = .next (holding s { s.codec with
      obuf := encodePayload name m a, olen := BitVec.ofNat 8 (encodePayload name m a).length }) := by
  simp only [exec, execEncode, h]
  rfl

theorem encodePayload_eq_bytes :
    encodePayload name m a = name ++ [0x2F, 0x30, 0x78] ++ hex16 m ++ [0x2F] ++ decArg a := by
  simp [encodePayload, encodeBody, charSlash, charZero, charX]

/-- A payload is short enough for OLEN to be its length (R163). -/
theorem olen_encodePayload (h : commandName cmd = some name) :
    (BitVec.ofNat 8 (encodePayload name m a).length).toNat = (encodePayload name m a).length := by
  have hle : _ ≤ 28 := (encodePayload_length_bounds h m a).2
  exact Nat.mod_eq_of_lt (by omega)

/-- The body of a payload starts at index 4 (R81). -/
theorem drop_encodePayload (h : commandName cmd = some name) : (encodePayload name m a).drop 4 = encodeBody m a :=
  List.drop_left' (by simp [commandName_length h])

theorem hexChar_toNat (n : BitVec 4) :
    (hexChar n).toNat = if n.toNat ≤ 9 then 0x30 + n.toNat else 0x61 + (n.toNat - 10) := by
  revert n; decide

/-- Digit `k` carries the nibble of weight `16 ^ (15 - k)` (R82). -/
theorem maskNibble_toNat {k : Nat} (hk : k < 16) : (maskNibble m k).toNat = m.toNat / 16 ^ (15 - k) % 16 := by
  have hweight : 2 ^ (60 - 4 * k) = 16 ^ (15 - k) := by
    rw [show 60 - 4 * k = 4 * (15 - k) by omega, Nat.pow_mul]
  rw [maskNibble, BitVec.extractLsb'_toNat, Nat.shiftRight_eq_div_pow, hweight]

theorem hex16_getElem? {k : Nat} (hk : k < 16) : (hex16 m)[k]? = some (hexChar (maskNibble m k)) := by
  simp [hex16, hk]

/-- The fuel of the argument field is no bound on its digits (R162). -/
theorem decArg_eq_decDigits {a : BitVec 16} (h : a ≠ 0) {fuel : Nat} (hfuel : a.toNat < 10 ^ fuel) :
    decArg a = decDigits fuel a.toNat := by
  have hlt := a.isLt
  rw [decArg, if_neg h]
  exact decDigits_fuel 5 fuel a.toNat (by omega) hfuel

end Text

/-- Settles O23: `encodePayload_eq_bytes` under each of the three names, and the code with no name. -/
theorem encodeWritesThePayload : Obligations.EncodeWritesThePayload := by
  refine ⟨fun p hop => decode_of_op hop, fun cmd m a s => ⟨fun name hname => ?_, fun hcmd => ?_⟩⟩
  · have hcmd : commandName cmd = some name := by
      rcases hname with ⟨rfl, rfl⟩ | ⟨rfl, rfl⟩ | ⟨rfl, rfl⟩ <;> rfl
    rw [exec_encode_named m a s hcmd, encodePayload_eq_bytes]
    rfl
  · subst hcmd; rfl

/-- Settles O24: each digit by the value of its nibble. -/
theorem maskDigitsAreMostSignificantFirst : Obligations.MaskDigitsAreMostSignificantFirst := by
  refine fun m => ⟨hex16_length m, fun k hk => ⟨_, hex16_getElem? m hk, ?_⟩⟩
  rw [hexChar_toNat, maskNibble_toNat m hk]

/-- Settles O25: the model's digits by fuel, where a quotient needs one digit less. -/
theorem argumentDigitsFollowTheirRule : Obligations.ArgumentDigitsFollowTheirRule := by
  refine ⟨rfl, fun a ha => ?_⟩
  have hlt := a.isLt
  have hne : a.toNat ≠ 0 := fun h => ha (BitVec.eq_of_toNat_eq h)
  rw [decArg_eq_decDigits (fuel := 5) ha (by omega), decDigits, if_neg hne, digitChar]
  congr 1
  split
  · next h0 => rw [h0]; rfl
  · next h0 =>
    have hquot : (BitVec.ofNat 16 (a.toNat / 10)).toNat = a.toNat / 10 := Nat.mod_eq_of_lt (by omega)
    have hq : BitVec.ofNat 16 (a.toNat / 10) ≠ 0 := fun h => h0 (by rw [← hquot, h]; rfl)
    rw [decArg_eq_decDigits (fuel := 4) hq (by omega), hquot]

/-- Settles O26: the payload's length in digits of the argument, which OLEN holds unreduced. -/
theorem encodeLengthIs23PlusTheDigits : Obligations.EncodeLengthIs23PlusTheDigits := by
  intro cmd m a s hcmd
  obtain ⟨name, hname⟩ := exists_commandName hcmd
  refine ⟨_, exec_encode_named m a s hname, (olen_encodePayload m a hname).symm, ?_⟩
  rw [← decArg_length a, ← encodePayload_length hname m a]
  exact olen_encodePayload m a hname

section Parsing
/-! What DECODE and CMDKIND read of the valid bytes (R164 to R168). -/

variable {b : List Byte} {n : Byte} (s : State)

/-- DECODE of a body that is too short (R167). -/
theorem exec_decode_short (h : n.toNat ≤ 19) :
    exec (.decode b n) s = .next (holding s { s.codec with rValid := false, rMask := 0, rArg := 0 }) := by
  have hnone : decodeBody (ibufBytes b n.toNat) = none := by
    rw [decodeBody, ibufBytes_length, if_neg (by omega)]
  simp only [exec, execDecode, hnone]
  rfl

/-- DECODE of valid bytes that hold a mask and an argument (R164). -/
theorem exec_decode_some {m : Mask} {a : BitVec 16} (h : decodeBody (ibufBytes b n.toNat) = some (m, a)) :
    exec (.decode b n) s = .next (holding s { s.codec with rValid := true, rMask := m, rArg := a }) := by
  simp only [exec, execDecode, h]
  rfl

/-- Every body of more than 19 bytes holds a mask and an argument (R164). -/
theorem decodeBody_long {bytes : List Byte} (h : 19 < bytes.length) :
    decodeBody bytes = some (parseMask ((bytes.drop 2).take 16), parseCount 0 (bytes.drop 19)) :=
  if_pos h

/-- Nibble `k` of the mask is that of byte `2 + k` (R164). -/
theorem parseMask_body_nibble {bytes : List Byte} (h : 19 < bytes.length) {k : Nat} (hk : k < 16) :
    (parseMask ((bytes.drop 2).take 16)).extractLsb' (60 - 4 * k) 4 = hexval (bytes[2 + k]'(by omega)) := by
  rw [parseMask_nibble _ k (by simp; omega) hk, List.getElem_take, List.getElem_drop]

theorem isDigit_eq_true_iff (c : Byte) : isDigit c = true ↔ 0x30 ≤ c.toNat ∧ c.toNat ≤ 0x39 := by
  simp only [isDigit, Bool.and_eq_true, decide_eq_true_eq]

theorem isDigit_eq_false_iff (c : Byte) : isDigit c = false ↔ c.toNat < 0x30 ∨ 0x39 < c.toNat := by
  rw [← Bool.not_eq_true, isDigit_eq_true_iff]
  omega

/-- The four bytes that a name and its separator take decide the kind (R168). -/
theorem cmdKind_eq_take_four (bytes : List Byte) :
    cmdKind bytes =
      (if bytes.take 4 = [0x66, 0x73, 0x74, 0x2F] then 0
        else if bytes.take 4 = [0x66, 0x6C, 0x74, 0x2F] then 1
        else if bytes.take 4 = [0x74, 0x6F, 0x66, 0x2F] then 2
        else 3) := by
  match bytes with
  | [] | [_] | [_, _] | [_, _, _] => simp [cmdKind]
  | b0 :: b1 :: b2 :: b3 :: rest =>
    by_cases hslash : b3 = charSlash
    · subst hslash
      simp [cmdKind, commandName, charSlash]
    · have hne : b3 ≠ 47#8 := hslash
      simp [cmdKind, hslash, hne]

end Parsing

/-- Settles O28: the bytes that DECODE reads are the first ILEN; the mask is read nibble by nibble, and the count is that of
digits only or that of a text with some other byte. -/
theorem decodeReadsTheMaskAndTheCount : Obligations.DecodeReadsTheMaskAndTheCount := by
  refine ⟨fun p hop => decode_of_op hop, fun b n s hlong hvalid => ?_⟩
  have hlen : 19 < (b.take n.toNat).length := by rw [List.length_take_of_le hvalid]; exact hlong
  have hbody := decodeBody_long hlen
  rw [← ibufBytes_eq_take hvalid] at hbody
  refine ⟨_, _, exec_decode_some s hbody, fun k hk => ?_, fun hdigits => ?_, fun hother => ?_⟩
  · have hread : 2 + k < (b.take n.toNat).length := by omega
    refine ⟨(b.take n.toNat)[2 + k], ?_, ?_⟩
    · rw [List.getElem_take, List.getElem?_eq_getElem]
    · rw [ibufBytes_eq_take hvalid, parseMask_body_nibble hlen hk]
  · rw [ibufBytes_eq_take hvalid]
    exact parseCount_digits 0 _ fun c hc => (isDigit_eq_true_iff c).mpr (hdigits c hc)
  · rw [ibufBytes_eq_take hvalid]
    obtain ⟨c, hc, hno⟩ := hother
    exact parseCount_garbage 0 _ ⟨c, hc, (isDigit_eq_false_iff c).mpr hno⟩

/-- Settles O29: each range of the decoder keeps its nibble below 16. -/
theorem hexDigitsReadInEitherCase : Obligations.HexDigitsReadInEitherCase := by
  refine fun c => ⟨fun hlo hhi => ?_, fun hlo hhi => ?_, fun hlo hhi => ?_, fun hdec hlow hup => ?_⟩
  · rw [hexval, if_pos ⟨hlo, hhi⟩]
    exact Nat.mod_eq_of_lt (by omega)
  · rw [hexval, if_neg (by omega), if_pos ⟨hlo, hhi⟩]
    exact Nat.mod_eq_of_lt (by omega)
  · rw [hexval, if_neg (by omega), if_neg (by omega), if_pos ⟨hlo, hhi⟩]
    exact Nat.mod_eq_of_lt (by omega)
  · rw [hexval, if_neg hdec, if_neg hlow, if_neg hup]

/-- Settles O30: the bytes that CMDKIND reads are the first ILEN, and four of them decide (`cmdKind_eq_take_four`). -/
theorem cmdkindRecognisesExactlyTheThreeNames : Obligations.CmdkindRecognisesExactlyTheThreeNames := by
  refine ⟨fun p hop => decode_of_op hop, fun b n s hvalid => ?_⟩
  rw [← cmdKind_eq_take_four, ← ibufBytes_eq_take hvalid]
  rfl

section Masks
/-! The mask operations bit by bit (R169 to R171). -/

variable (id : BitVec 7) (m a b : Mask)

theorem idBit_of_addressable {id : BitVec 7} (hlo : 1 ≤ id.toNat) (hhi : id.toNat ≤ 64) :
    idBit id = some (id.toNat - 1) :=
  if_pos ⟨hlo, hhi⟩

theorem idBit_of_unaddressable {id : BitVec 7} (h : id.toNat = 0 ∨ 65 ≤ id.toNat) : idBit id = none :=
  if_neg (by omega)

/-- MATCH writes its result and nothing else (R169). -/
theorem exec_matchId (s : State) :
    exec (.matchId id m) s = .next (holding s { s.codec with rBool := maskHas id m }) := rfl

theorem maskHas_of_addressable {id : BitVec 7} (hlo : 1 ≤ id.toNat) (hhi : id.toNat ≤ 64) :
    maskHas id m = m.getLsbD (id.toNat - 1) := by
  rw [maskHas, idBit_of_addressable hlo hhi]

theorem maskHas_of_unaddressable {id : BitVec 7} (h : id.toNat = 0 ∨ 65 ≤ id.toNat) : maskHas id m = false := by
  rw [maskHas, idBit_of_unaddressable h]

/-- An identifier matches exactly the masks that have its bit (R169). -/
theorem maskHas_eq_true_iff :
    maskHas id m = true ↔ 1 ≤ id.toNat ∧ id.toNat ≤ 64 ∧ m.getLsbD (id.toNat - 1) = true := by
  by_cases h : 1 ≤ id.toNat ∧ id.toNat ≤ 64
  · obtain ⟨hlo, hhi⟩ := h
    simp only [maskHas_of_addressable m hlo hhi, hlo, hhi, true_and]
  · rw [maskHas_of_unaddressable m (by omega)]
    exact ⟨nofun, fun ⟨hlo, hhi, _⟩ => absurd ⟨hlo, hhi⟩ h⟩

@[simp] theorem clearBits_getLsbD (k : Nat) : (clearBits a b).getLsbD k = (a.getLsbD k && !b.getLsbD k) := by
  by_cases hk : k < 64
  · simp only [clearBits, BitVec.getLsbD_and, BitVec.getLsbD_not, hk, decide_true, Bool.true_and]
  · rw [BitVec.getLsbD_of_ge _ k (by omega), BitVec.getLsbD_of_ge a k (by omega), Bool.false_and]

/-- What CLRBITS leaves has no bit of the mask it clears (R170). -/
theorem clearBits_and_cleared : clearBits a b &&& b = 0 := by
  rw [clearBits, BitVec.and_assoc, BitVec.and_comm (~~~b), BitVec.and_not_self]
  exact BitVec.and_zero

/-- What CLRBITS leaves has only bits of its first mask (R170). -/
theorem clearBits_and_kept : clearBits a b &&& a = clearBits a b := by
  rw [clearBits, BitVec.and_comm a, BitVec.and_assoc, BitVec.and_self]

/-- AND and NOT act on a field of the mask apart (R174). -/
theorem clearBits_extractLsb' (start len : Nat) :
    (clearBits a b).extractLsb' start len = a.extractLsb' start len &&& ~~~(b.extractLsb' start len) := by
  refine BitVec.eq_of_getLsbD_eq fun j hj => ?_
  simp only [BitVec.getLsbD_extractLsb', BitVec.getLsbD_and, BitVec.getLsbD_not, clearBits_getLsbD, hj, decide_true,
    Bool.true_and]

/-- The empty mask addresses no channel. -/
theorem maskHas_zero : maskHas id 0 = false := by
  cases h : idBit id <;> simp [maskHas, h]

/-- Only an identifier of the first mask that the second lacks is left (R170). -/
theorem maskHas_clearBits : maskHas id (clearBits a b) = (maskHas id a && !maskHas id b) := by
  cases h : idBit id <;> simp [maskHas, h]

/-- The mask with the bit of an addressable identifier cleared (R171). -/
theorem selfUnmask_getLsbD {id : BitVec 7} (hlo : 1 ≤ id.toNat) (hhi : id.toNat ≤ 64) {k : Nat} (hk : k < 64) :
    (selfUnmask id m).getLsbD k = (m.getLsbD k && k + 1 != id.toNat) := by
  have hbit : ((1 : Mask) <<< (id.toNat - 1)).getLsbD k = decide (k + 1 = id.toNat) := by
    change (1#64 <<< (id.toNat - 1)).getLsbD k = _
    rw [BitVec.getLsbD_shiftLeft, BitVec.getLsbD_one, Bool.eq_iff_iff]
    simp only [Bool.and_eq_true, Bool.not_eq_true', decide_eq_true_eq, decide_eq_false_iff_not]
    omega
  rw [selfUnmask, idBit_of_addressable hlo hhi]
  simp only [BitVec.getLsbD_and, BitVec.getLsbD_not, hbit, hk, decide_true, Bool.true_and]
  rfl

theorem selfUnmask_of_unaddressable {id : BitVec 7} (h : id.toNat = 0 ∨ 65 ≤ id.toNat) : selfUnmask id m = m := by
  rw [selfUnmask, idBit_of_unaddressable h]

/-- An identifier never matches what SELFUNMASK leaves for it (R173). -/
theorem maskHas_selfUnmask : maskHas id (selfUnmask id m) = false := by
  by_cases h : 1 ≤ id.toNat ∧ id.toNat ≤ 64
  · obtain ⟨hlo, hhi⟩ := h
    rw [maskHas_of_addressable _ hlo hhi, selfUnmask_getLsbD m hlo hhi (by omega), Nat.sub_add_cancel hlo]
    simp
  · exact maskHas_of_unaddressable _ (by omega)

end Masks

/-- Settles O27: the zero mask of a body that is too short addresses no channel. -/
theorem decodeOfAShortBodyIsInvalid : Obligations.DecodeOfAShortBodyIsInvalid := by
  refine fun b n s hshort => ⟨exec_decode_short s hshort, fun id t ht => ⟨_, rfl, ?_⟩⟩
  rw [exec_decode_short s hshort] at ht
  obtain rfl := Host.Outcome.next.inj ht
  exact maskHas_zero id

/-- Settles O31: an identifier's bit, if it has one. -/
theorem matchReadsTheIdentifiersBit : Obligations.MatchReadsTheIdentifiersBit := by
  refine ⟨fun p hop => decode_of_op hop, fun id m s => ⟨fun hlo hhi => ?_, fun hid => ?_⟩⟩
  · rw [exec_matchId, maskHas_of_addressable m hlo hhi]; rfl
  · rw [exec_matchId, maskHas_of_unaddressable m hid]; rfl

/-- Settles O32, bit by bit. -/
theorem clrbitsKeepsTheBitsTheOtherLacks : Obligations.ClrbitsKeepsTheBitsTheOtherLacks :=
  ⟨fun _ hop => decode_of_op hop, fun a b _ => ⟨clearBits a b, rfl, rfl, fun k _ => clearBits_getLsbD a b k⟩⟩

/-- Settles O33, bit by bit. -/
theorem selfunmaskClearsTheIdentifiersBit : Obligations.SelfunmaskClearsTheIdentifiersBit :=
  ⟨fun _ hop => decode_of_op hop, fun id m _ => ⟨selfUnmask id m, rfl,
    fun hlo hhi _ hk => selfUnmask_getLsbD m hlo hhi hk, selfUnmask_of_unaddressable m⟩⟩

/-- Settles O35: CLRBITS only takes bits away, so what it leaves does not match the owner either. -/
theorem selfUnmaskedMasksNeverMatchTheirOwner : Obligations.SelfUnmaskedMasksNeverMatchTheirOwner := by
  intro id m x s
  have hcleared : maskHas id (clearBits (selfUnmask id m) x) = false := by
    rw [maskHas_clearBits, maskHas_selfUnmask, Bool.false_and]
  exact ⟨_, _, _, _, rfl, rfl, maskHas_selfUnmask id m, rfl, rfl, hcleared⟩

/-- Settles O36, where each nibble is a field of the mask (`clearBits_extractLsb'`). -/
theorem nibblewiseClearIsTheWholeClear : Obligations.NibblewiseClearIsTheWholeClear :=
  fun a b _ => ⟨_, rfl, fun k _ => clearBits_extractLsb' a b (4 * k) 4⟩

/-- Settles O37: the forwarded mask is what CLRBITS leaves of the channel's own. -/
theorem forwardedMaskAvoidsTheIncomingOne : Obligations.ForwardedMaskAvoidsTheIncomingOne := by
  intro cmd own incoming count s hcmd
  obtain ⟨name, hname⟩ := exists_commandName hcmd
  exact ⟨_, name, exec_encode_named (clearBits own incoming) count _ hname, hname, rfl,
    clearBits_and_cleared own incoming, clearBits_and_kept own incoming⟩

section Reception
/-! DECODE and CMDKIND of what ENCODE has written (R172, R175). -/

variable {cmd : BitVec 2} {name : List Byte} (h : commandName cmd = some name) (m : Mask) (a : BitVec 16) (s : State)

/-- A byte string shorter than 256 bytes is read whole (R85). -/
theorem ibufBytes_whole {b : List Byte} (hb : b.length < 256) : ibufBytes b (BitVec.ofNat 8 b.length).toNat = b := by
  have hlen : (BitVec.ofNat 8 b.length).toNat = b.length := Nat.mod_eq_of_lt hb
  rw [hlen, ibufBytes_eq_take (Nat.le_refl _), List.take_length]

theorem encodeBody_length : (encodeBody m a).length = 19 + (decArg a).length := by
  simp [encodeBody]
  omega

/-- DECODE of an encoded body (R172). -/
theorem exec_decodeString_encodeBody :
    exec (decodeString (encodeBody m a)) s =
      .next (holding s { s.codec with rValid := true, rMask := m, rArg := a }) := by
  have hdigits := (decArg_length_bounds a).2
  refine exec_decode_some s ?_
  rw [ibufBytes_whole (by rw [encodeBody_length]; omega), decodeBody_encodeBody]

include h

/-- CMDKIND of an encoded payload (R172). -/
theorem exec_cmdkindString_encodePayload :
    exec (cmdkindString (encodePayload name m a)) s = .next (holding s { s.codec with rCmd := cmd }) := by
  have hle : _ ≤ 28 := (encodePayload_length_bounds h m a).2
  have hkind : cmdKind (ibufBytes (encodePayload name m a) (BitVec.ofNat 8 (encodePayload name m a).length).toNat) = cmd := by
    rw [ibufBytes_whole (by omega), cmdKind_encodePayload h]
  rw [← hkind]
  rfl

/-- DECODE of the bytes of OBUF from index 4 to OLEN, which are the body (R172). -/
theorem exec_decode_encodePayload_from_four :
    exec (.decode ((encodePayload name m a).drop 4) (BitVec.ofNat 8 (encodePayload name m a).length - 4)) s =
      .next (holding s { s.codec with rValid := true, rMask := m, rArg := a }) := by
  have hlen : BitVec.ofNat 8 (encodePayload name m a).length - 4 = BitVec.ofNat 8 (encodeBody m a).length := by
    rw [encodePayload_length h, encodeBody_length,
      show 23 + (decArg a).length = 19 + (decArg a).length + 4 by omega, BitVec.ofNat_add]
    exact BitVec.add_sub_cancel _ _
  rw [hlen, drop_encodePayload m a h]
  exact exec_decodeString_encodeBody m a s

/-- What receiving an encoded payload leaves in the codec's registers (R175). -/
theorem receiveCommand_encodePayload (id : BitVec 7) :
    receiveCommand id (encodePayload name m a) s = .next (holding s { s.codec with
      rCmd := cmd, rValid := true, rMask := m, rArg := a, rBool := maskHas id m }) := by
  simp only [receiveCommand, pseudoRecv, performAll, drop_encodePayload m a h, exec_cmdkindString_encodePayload h,
    exec_decodeString_encodeBody]
  rfl

end Reception

/-- Settles O34: each field of the payload reads back as what was written. -/
theorem wireRoundTripGivesBackEveryCommand : Obligations.WireRoundTripGivesBackEveryCommand := by
  intro cmd m a s hcmd
  obtain ⟨name, hname⟩ := exists_commandName hcmd
  exact ⟨_, _, _, exec_encode_named m a s hname, exec_decode_encodePayload_from_four hname m a _,
    exec_cmdkindString_encodePayload hname m a _, rfl, rfl, rfl, rfl⟩

/-- Settles O38: the kind is that of a group command and the body is valid, so whether the channel acts is its MATCH. -/
theorem receiverActsExactlyWhenAddressed : Obligations.ReceiverActsExactlyWhenAddressed := by
  intro cmd m a id s t hcmd ht
  obtain ⟨name, hname⟩ := exists_commandName hcmd
  rw [exec_encode_named m a s hname] at ht
  obtain rfl := Host.Outcome.next.inj ht
  refine ⟨_, receiveCommand_encodePayload hname m a _ id, rfl, rfl, ?_⟩
  have hgroup : (cmd != 3) = true := bne_iff_ne.mpr hcmd
  change (cmd != 3 && true && maskHas id m) = true ↔ _
  rw [hgroup, Bool.and_self, Bool.true_and, maskHas_eq_true_iff]

end Sys2Proof.Proofs.GroupCodec

/-! PROOFS. The statements about exceptions (60_exceptions.md): no operation and no step ends in a fault or a refusal, and
Disabled, the quiescent state, is left by ENABLE alone. -/

namespace Sys2Proof.Proofs.Exceptions

open Sys2Proof.Machine Sys2Proof.Laws Sys2Proof.Proofs.BlockState Sys2Proof.Proofs.Presentation Sys2Proof.Proofs.Encoding
  Sys2Proof.Proofs.TapClassifier

/-- Settles O50: an operation answers the state `after` names (`exec_after`), and so does a step, which also resets, waits or
performs a reserved code (`exists_step_eq_next`). -/
theorem everyOperationCompletes : Obligations.EveryOperationCompletes :=
  ⟨fun i s => ⟨after i s, exec_after i s⟩, exists_step_eq_next⟩

/-- Of the operations that write `st` (R22), edges and polls do nothing in Disabled (R134) and DISABLE stays there. -/
theorem eq_enable_of_left_disabled {i : Instr} {s : State} (hst : s.cls.st = .disabled)
    (hleft : (after i s).cls.st ≠ .disabled) : i = .enable := by
  have hchanged : (clsAfter i s.cls).st ≠ s.cls.st := hst ▸ hleft
  rcases writer_of_st_changed hchanged with ⟨u, htimed⟩ | rfl | rfl
  · have hi : IsEdgeOrPoll i := by rcases htimed with rfl | rfl | rfl <;> nofun
    rw [after_disabled hi hst] at hleft
    exact absurd hst hleft
  · rfl
  · exact absurd rfl hleft

/-- Only the code 0x04 decodes to ENABLE (R72). -/
theorem op_of_decode_enable {p : Ports} (h : decode p = .ok .enable) : p.op = 0x04 := (sameReadPorts_encode h).1

/-- Settles O51: a step that waits, resets or performs a reserved code ends in Disabled again, and an operation that does not
is ENABLE. -/
theorem onlyEnableLeavesDisabled : Obligations.OnlyEnableLeavesDisabled := by
  intro s t hst hstep hleft
  rcases step_cases hstep with ⟨-, rfl⟩ | ⟨rest, -, rfl⟩ | ⟨p, rest, i, hfeed, hdecode, rfl⟩ | ⟨p, rest, e, -, -, rfl⟩
  · exact absurd hst hleft
  · exact absurd rfl hleft
  · obtain rfl := eq_enable_of_left_disabled hst hleft
    exact ⟨p, rest, hfeed, op_of_decode_enable hdecode⟩
  · exact absurd hst hleft

end Sys2Proof.Proofs.Exceptions

/-! PROOFS. The statements about reset and hazards (70_reset_and_hazards.md): the step that waits and the step that resets, the
boot sequence, and what a clock wrap does to the inter-tap window and to the hold of a press. -/

namespace Sys2Proof.Proofs.ResetAndHazards

open Sys2Proof.Machine Sys2Proof.Laws Sys2Proof.Proofs.BlockState Sys2Proof.Proofs.TimerMarks
  Sys2Proof.Proofs.TapClassifier

section Wrap
/-! A clock that has wrapped once past the start mark (R102). -/

variable {w : Nat} {t : BitVec w} {tm : Timer w}

theorem ticksBetween_of_wrap (h : t < tm.start) : ticksBetween tm.start t = t.toNat + (2 ^ w - tm.start.toNat) := by
  rw [ticksBetween, if_pos h, Nat.add_sub_assoc tm.start.isLt.le]

theorem refreshedMarks_of_wrap (h : t < tm.start) : refreshedMarks t tm = ⟨0, t - tm.start⟩ := if_pos h

end Wrap

/-- Settles O46: the first poll finds the window open and takes the wrap branch of TimerMarkNow, so the second one compares
`it` with the clock itself (`ticksBetween_after_wrap`). -/
theorem wrapInsideTheWindowRestartsItFromZero : Obligations.WrapInsideTheWindowRestartsItFromZero := by
  intro s t1 t2 hst hwrap hwindow
  rw [← ticksBetween_of_wrap hwrap] at hwindow ⊢
  set reopened : State := showing s { s.cls with tm := refreshedMarks t1 s.cls.tm } .none
  have hfirst : after (.poll t1) s = reopened := after_poll (poll_open t1 s.cls hst hwindow)
  have hticks : ticksBetween reopened.cls.tm.start t2 = t2.toNat := ticksBetween_after_wrap hwrap
  have hmarks : reopened.cls.tm = ⟨0, t1 - s.cls.tm.start⟩ := refreshedMarks_of_wrap hwrap
  constructor
  · refine ⟨reopened, exec_eq_of_after hfirst, hst, congrArg Timer.start hmarks, ?_⟩
    rw [hmarks, sub_toNat_ticks]
  · refine ⟨after (.poll t2) reopened, (Runs.cons hfirst (Runs.cons rfl runs_nil)).1, fun hclosed => ?_, fun hopen => ?_⟩
    · rw [after_poll (poll_end t2 reopened.cls hst (hticks.symm ▸ hclosed))]
      exact ⟨rfl, rfl⟩
    · rw [after_poll (poll_open t2 reopened.cls hst (hticks.symm ▸ hopen))]
      exact ⟨hst, rfl⟩

/-- Clocks less than one full wrap apart in real time are as many ticks apart (R106, R234 (c)). -/
theorem ticksBetween_ofNat {w r0 r1 : Nat} (hle : r0 ≤ r1) (hwrap : r1 - r0 < 2 ^ w) :
    ticksBetween (BitVec.ofNat w r0) (BitVec.ofNat w r1) = r1 - r0 := by
  have hexact := elapsedIsExactUnderOneWrap w r0 (r1 - r0) ⟨0, 0⟩ (Nat.le_pred_of_lt hwrap)
  rwa [elapsed_ticks, markAll_start, Nat.add_sub_cancel' hle] at hexact

/-- A first press held at least the threshold, with detection on, is long, and no other is (R125, R139). -/
theorem tap_first_long_iff {w : Nat} {c : Classifier w} (a b : BitVec w) (hst : c.st = .idle) (hcnt : c.cnt = 0) :
    ((c.press a).release b).2 = .long ↔ c.lt ≠ 0 ∧ c.lt.toNat ≤ ticksBetween a b := by
  by_cases hlong : c.lt ≠ 0 ∧ c.lt.toNat ≤ ticksBetween a b
  · rw [tap_first_long hst hcnt hlong.1 hlong.2]
    exact iff_of_true rfl hlong
  · have hshort : ticksBetween a b < c.lt.toNat ∨ c.lt = 0 := by
      rw [not_and_or, not_not, Nat.not_le] at hlong
      exact hlong.symm
    rw [tap_first_short hst hcnt hshort]
    exact iff_of_false nofun hlong

theorem outOfEvent_evtKind_eq_long (ev : TapEvent) : (outOfEvent ev).evtKind = .long ↔ ev = .long := by
  cases ev <;> simp [outOfEvent]

/-- Settles O47: R234 makes the hold in ticks the hold in real time (`ticksBetween_ofNat`). -/
theorem holdIsRealTimeUnderTheClockObligations : Obligations.HoldIsRealTimeUnderTheClockObligations := by
  intro s r0 r1 t0 t1 hst hcnt hclock
  obtain ⟨rfl, -, rfl, hspaced, -⟩ := hclock
  obtain ⟨hle, hwrap⟩ := hspaced r0 rfl
  refine ⟨_, (runs_tap rfl).1, ?_⟩
  rw [← ticksBetween_ofNat hle hwrap, ← tap_first_long_iff _ _ hst hcnt]
  exact outOfEvent_evtKind_eq_long _

section Boot
/-! The parts of the boot sequence (R231): what each leaves in the classifier, and that it emits nothing. -/

/-- CONFIG writes the two thresholds (R86). -/
theorem runs_pseudoConfig (lt it : Word) (s : State) :
    Runs (pseudoConfig lt it) s (showing s { s.cls with lt := lt, it := it } .none) [] :=
  ⟨rfl, rfl⟩

/-- Operations of the codec, however many, leave the classifier alone and emit nothing. -/
theorem runs_of_unit_one {is : List Instr} (his : ∀ i ∈ is, 0x10 ≤ (opcode i).toNat) (s : State) :
    ∃ t, Runs is s t [] ∧ t.cls = s.cls := by
  induction is generalizing s with
  | nil => exact ⟨s, runs_nil, rfl⟩
  | cons i is ih =>
    obtain ⟨hi, his⟩ := List.forall_mem_cons.mp his
    obtain ⟨t, hrun, hcls⟩ := ih his (after i s)
    have hquiet : (after i s).event = .none := event_of_evtKind_none (outAfter_quiet_of_unit_one hi s.cls).1
    have hcons := Runs.cons rfl hrun
    rw [hquiet] at hcons
    exact ⟨t, hcons, hcls.trans (clsAfter_of_unit_one hi s.cls)⟩

/-- SELFUNMASK of each mask of a list is a list of operations of the codec (R72). -/
theorem unit_one_of_mem_selfunmasks {id : BitVec 7} {masks : List Mask} {i : Instr}
    (hi : i ∈ masks.map (.selfunmask id)) : 0x10 ≤ (opcode i).toNat := by
  obtain ⟨m, -, rfl⟩ := List.mem_map.mp hi
  simp [opcode]

theorem runs_enable (s : State) : Runs [.enable] s (after .enable s) [] := ⟨rfl, rfl⟩

end Boot

/-- Settles O49: CONFIG and the self-unmasking leave the reset state's Disabled and marks, which ENABLE leaves for Idle. -/
theorem bootSequenceConfiguresTheChannel : Obligations.BootSequenceConfiguresTheChannel := by
  intro lt it id masks
  have hconfig := runs_pseudoConfig lt it State.reset
  obtain ⟨t, hmasks, hcls⟩ := runs_of_unit_one (fun _ => unit_one_of_mem_selfunmasks (id := id) (masks := masks))
    (showing State.reset { State.reset.cls with lt := lt, it := it } .none)
  have hboot := (hconfig.append hmasks).append (runs_enable t)
  refine ⟨_, hboot.1, ?_, hboot.2⟩
  rw [after_cls, hcls]
  rfl

/-- Settles O4: an empty feed is the first case of the step. -/
theorem stepWaitsWhenNothingIsPresented : Obligations.StepWaitsWhenNothingIsPresented := by
  intro s hfeed
  simp only [step, hfeed]

/-- A step with a reset at the head of the feed takes it and resets the block (R230). -/
theorem step_reset {s : State} {rest : List Stimulus} (h : s.feed = .reset :: rest) :
    step s = .next (resetBlock { s with feed := rest }) := by
  simp only [step, h]

/-- Settles O5: the reset overwrites everything but what is presented after it. -/
theorem resetStimulusRestoresEveryRegister : Obligations.ResetStimulusRestoresEveryRegister :=
  fun _ _ hfeed => step_reset hfeed

end Sys2Proof.Proofs.ResetAndHazards
